-- ==== Sys2Proof/Word.lean ====
section
/-! DEFINITION. The two widths of the block: 8-bit data and 16-bit addresses (00 R6, XLEN_DATA and XLEN_ADDR). -/

namespace Sys2Proof

/-- One byte on the Bus, one opcode, one 8-bit register: `u8` (00 section 6). -/
abbrev Byte := BitVec 8

/-- A Bus address, `pc`, `sp`, an operand: `u16` (00 section 6). Its `+` and `-` are `+16` and `-16`: modulo 2^16 (D7, log 21). -/
abbrev Word := BitVec 16

end Sys2Proof
end

