-- ==== Sys2Proof/Config.lean ====
section
/-! DEFINITION. The parameters of the block (00 R6) as plain data, the type of an effect (41 R93), and the free values:
constants with no body, so that a statement holds whatever they are. -/

namespace Sys2Proof

/-- The five interrupt sources, highest priority first (60 R111). -/
inductive IrqSource where
  | videoBlank
  | displayStatus
  | timer
  | serial
  | joypad
deriving DecidableEq, Repr

/-- The condition under which `handleInterrupts` proceeds past its step 2 (60 R115, R126). -/
inductive IrqGuard where
  | masked
  | eachNonzero
deriving DecidableEq, Repr

/-- Which bits of `requestedFlags` a dispatch clears (60 R120, R127). -/
inductive AckPolicy where
  | clearAll
  | clearServiced
deriving DecidableEq, Repr

/-- VEC[0..4]: the fixed service address of each source (60 R111). -/
structure Vectors where
  videoBlank    : Word
  displayStatus : Word
  timer         : Word
  serial        : Word
  joypad        : Word
deriving DecidableEq, Repr

/-- The opaque register file: "fixed set of 8-bit/16-bit general and flag registers" (10 R11). How many there are of each
width is the shape of the two lists (log 4). -/
structure RegFile where
  r8  : List Byte
  r16 : List Word
deriving DecidableEq, Repr

/-- What an effect may read of the CPU state (41 R93): everything but `elapsedCycles` (D14). -/
structure CpuView where
  regs   : RegFile
  pc     : Word
  sp     : Word
  ime    : Bool
  halted : Bool
deriving DecidableEq, Repr

/-- One assignment an effect may make (41 R93): a register, `pc`, `sp`, `ime` to either value, `halted` to 1 only. There is
no way to write `elapsedCycles`, the table or the controller: D14 is enforced by this type (log 25). -/
inductive FieldWrite where
  | r8 (i : Nat) (v : Byte)
  | r16 (i : Nat) (v : Word)
  | pc (v : Word)
  | sp (v : Word)
  | ime (v : Bool)
  | halt
deriving DecidableEq, Repr

/-- An effect, once its operand is known: reads of the CPU state, assignments and Bus accesses in the effect's own order
(41 R93, R99). It is deterministic: a function of the CPU state and of what the Bus answers. -/
inductive Effect where
  | done
  | get (k : CpuView → Effect)
  | put (w : FieldWrite) (next : Effect)
  | busRead (a : Word) (k : Byte → Effect)
  | busWrite (a : Word) (v : Byte) (next : Effect)
deriving Inhabited

/-- The effect a descriptor names, as plain data: the twelve effects of the fixture table FT (95 section 4), or the
`external n`, an effect of which nothing is known (log 3). `nothing` is also the effect of FT's `ILL`. -/
inductive EffectRef where
  | nothing
  | jumpRelative
  | loadSp
  | incA
  | loadImmediateA
  | halt
  | jump
  | returnInterrupt
  | storeA
  | disableInterrupts
  | loadA
  | enableInterrupts
  | external (n : Nat)
deriving DecidableEq, Repr

/-- A descriptor of the Instruction Table (41 R90): five fields. `template` serves the optional trace only, which the model
leaves out (R74, D21, log 20). -/
structure Descriptor where
  length : Nat
  duration : Nat
  effect : EffectRef
  advancesProgramCounter : Bool
  template : String
deriving DecidableEq, Repr

/-- ITAB as plain data: the descriptors of the opcodes listed, and one descriptor for every other opcode. Every map from the
256 opcodes to descriptors has this form (41 R96: total and immutable). -/
structure Table where
  rows  : List (Byte × Descriptor)
  other : Descriptor
deriving DecidableEq, Repr

/-- The parameters of 00 R6. They stand in State, where a statement over every state is a statement over all of them, and
no step changes them (70 R153, log 1). -/
structure Params where
  itab           : Table
  vec            : Vectors
  irqGuard       : IrqGuard
  ackPolicy      : AckPolicy
  haltGatesCycle : Bool
  wEc            : Nat
deriving DecidableEq, Repr

/-- FREE VALUE: the effect of a descriptor whose effect is `external n`, for the operand it is invoked with. No source lists
the effects of the hardware's opcodes (41 R93, N4, log 3). -/
opaque Config.effect : Nat → Word → Effect

/-- FREE VALUE: what the Bus answers to the n-th read of a device address: any `u8` (20 R31, U5, log 8). -/
opaque Config.deviceRead : Nat → Word → Byte

end Sys2Proof
end

