-- ==== Sys2Proof/Machine/Flags.lean ====
section
/-! DEFINITION. The flag computations of the block: the bits of the two Interrupt Controller registers (10 R20), the guard
(60 R115, R126) and the priority scan (60 R119, 30 R60). The block has no condition codes of its own (10 R17). -/

namespace Sys2Proof

/-- The bit of both controller registers that belongs to a source (10 R20, D6). -/
def IrqSource.bit : IrqSource → Nat
  | .videoBlank => 0
  | .displayStatus => 1
  | .timer => 2
  | .serial => 3
  | .joypad => 4

/-- `1 << k`. -/
def IrqSource.mask (k : IrqSource) : Byte := 1#8 <<< k.bit

/-- VEC[k] (60 R111). -/
def Vectors.get (v : Vectors) : IrqSource → Word
  | .videoBlank => v.videoBlank
  | .displayStatus => v.displayStatus
  | .timer => v.timer
  | .serial => v.serial
  | .joypad => v.joypad

/-- The five significant bits of a controller register (10 R20). -/
def significant : Byte := 0x1F#8

/-- `p = rf & em & 0x1F` (60 R119). -/
def pendingEnabled (rf em : Byte) : Byte := rf &&& em &&& significant

/-- The ordered table of (flag bit, vector address) pairs (30 R60). -/
def dispatchTable (v : Vectors) : List (IrqSource × Word) :=
  [(.videoBlank, v.videoBlank), (.displayStatus, v.displayStatus), (.timer, v.timer), (.serial, v.serial),
   (.joypad, v.joypad)]

/-- The first row of the dispatch table whose bit is set in `p` (60 R119). -/
def scan (v : Vectors) (p : Byte) : Option (IrqSource × Word) :=
  (dispatchTable v).find? fun row => p.getLsbD row.1.bit

/-- The guard of step 2: true where the call goes on (60 R115; `eachNonzero` is 60 R126). -/
def guardPasses (g : IrqGuard) (rf em : Byte) : Bool :=
  match g with
  | .masked => pendingEnabled rf em != 0#8
  | .eachNonzero => rf != 0#8 && em != 0#8

end Sys2Proof
end

