-- ==== Sys2Proof/Machine/Operands.lean ====
section
/-! DEFINITION. Operand assembly (30 R55-R57) and the byte slices of a 16-bit value (41 R105): every operand form. -/

namespace Sys2Proof

/-- `{hi, lo}` (00 section 6). -/
def concat (hi lo : Byte) : Word := hi ++ lo

/-- `v[7:0]`. -/
def lowByte (v : Word) : Byte := v.extractLsb' 0 8

/-- `v[15:8]`. -/
def highByte (v : Word) : Byte := v.extractLsb' 8 8

/-- `zext_16(b)` (41 R105). -/
def zext16 (b : Byte) : Word := b.zeroExtend 16

/-- `sext_16(b)`: the block never uses it, only the effect of FT's `JR e8` does (00 section 6). -/
def sext16 (b : Byte) : Word := b.signExtend 16

/-- The L1 operand: 0x0000 (30 R55, D19). -/
def operandL1 : Word := 0x0000#16

/-- The L2 operand: the byte, zero-extended (30 R56). -/
def operandL2 (imm8 : Byte) : Word := zext16 imm8

/-- The L3 operand: low byte first (30 R57, 20 R32). -/
def operandL3 (lo hi : Byte) : Word := concat hi lo

end Sys2Proof
end

