-- ==== Sys2Proof/Machine/Table.lean ====
section
/-! DEFINITION. The Instruction Table: lookup (40 R68), its contract (41 R91, R92, R106), the fixture table FT (95 section 4),
and the default parameters (00 R6). -/

namespace Sys2Proof

/-- `ITAB(op)`: total, no side effect (30 R59, 40 R68). -/
def Table.lookup (t : Table) (op : Byte) : Descriptor :=
  (t.rows.lookup op).getD t.other

/-- DMAX = 2^W_EC - 1 (00 R6). -/
def Params.dmax (c : Params) : Nat := 2 ^ c.wEc - 1

/-- The contract of a descriptor: `length` in 1..3 (41 R91), `duration` in 1..DMAX (41 R92). -/
def Descriptor.ok (dmax : Nat) (d : Descriptor) : Bool :=
  decide (1 ≤ d.length) && decide (d.length ≤ 3) && decide (1 ≤ d.duration) && decide (d.duration ≤ dmax)

/-- Every one of the 256 opcodes has a row of its own, so that no opcode uses `other`. -/
def Table.listsAll (t : Table) : Bool :=
  (List.range 256).all fun n => (t.rows.lookup (BitVec.ofNat 8 n)).isSome

/-- The check of the 256 descriptors (41 R106): those of the listed opcodes, and that of the others if there are any. It is
true exactly when every descriptor is within the contract (Laws, `Table.ok_iff`). -/
def Table.ok (dmax : Nat) (t : Table) : Bool :=
  (t.rows.all fun r => (t.lookup r.1).ok dmax) && (t.other.ok dmax || t.listsAll)

/-- Two descriptors that the block cannot tell apart: equal but for the trace template. -/
def Descriptor.sameAs (d e : Descriptor) : Bool :=
  d.length == e.length && d.duration == e.duration && d.effect == e.effect
    && d.advancesProgramCounter == e.advancesProgramCounter

/-- The fixture table FT: twelve named opcodes and `ILL` for the other 244 (95 section 4, D25). Not a claim about the
hardware (log 2). -/
def fixtureTable : Table where
  rows := [
    (0x00#8, ⟨1, 4, .nothing, true, "NOP"⟩),
    (0x18#8, ⟨2, 12, .jumpRelative, true, "JR e8"⟩),
    (0x31#8, ⟨3, 12, .loadSp, true, "LD SP,d16"⟩),
    (0x3C#8, ⟨1, 4, .incA, true, "INC A"⟩),
    (0x3E#8, ⟨2, 8, .loadImmediateA, true, "LD A,d8"⟩),
    (0x76#8, ⟨1, 4, .halt, true, "HALT"⟩),
    (0xC3#8, ⟨3, 16, .jump, false, "JP a16"⟩),
    (0xD9#8, ⟨1, 16, .returnInterrupt, false, "RETI"⟩),
    (0xEA#8, ⟨3, 16, .storeA, true, "LD (a16),A"⟩),
    (0xF3#8, ⟨1, 4, .disableInterrupts, true, "DI"⟩),
    (0xFA#8, ⟨3, 16, .loadA, true, "LD A,(a16)"⟩),
    (0xFB#8, ⟨1, 4, .enableInterrupts, true, "EI"⟩)]
  other := ⟨1, 4, .nothing, false, "ILL"⟩

/-- FT has a row of its own for `op`: `op` is not one of the 244 `ILL` values. -/
def isFixtureOpcode (op : Byte) : Bool :=
  fixtureTable.rows.any fun r => r.1 == op

/-- The table `t` binds `op` as FT binds it: `op` then has FT's mnemonic (log 16). -/
def Table.bindsFixture (t : Table) (op : Byte) : Bool :=
  (t.lookup op).sameAs (fixtureTable.lookup op)

/-- The table `t` binds `op` to a descriptor of length `n` that is not FT's (log 16). -/
def Table.bindsClass (t : Table) (op : Byte) (n : Nat) : Bool :=
  (t.lookup op).length == n && !t.bindsFixture op

/-- The default service addresses of 00 R6, PRESUMED: from general knowledge, not in the source (log 10). -/
def defaultVectors : Vectors := ⟨0x0040#16, 0x0048#16, 0x0050#16, 0x0058#16, 0x0060#16⟩

/-- The defaults of 00 R6 (log 11), with FT as the table (log 2). -/
def defaultParams : Params where
  itab := fixtureTable
  vec := defaultVectors
  irqGuard := .masked
  ackPolicy := .clearAll
  haltGatesCycle := false
  wEc := 8

end Sys2Proof
end

