-- ==== Sys2Proof/Syntax.lean ====
section
/-! DEFINITION. The instructions: one constructor per row of spec/opcode_table.json. -/

namespace Sys2Proof

/-- The three format classes (30 R51-R53), the five dispatches the controller injects (60 R121-R125), and the rows of the
fixture table FT (95 section 4). -/
inductive Instr where
  /-- `OP.L1`: any opcode whose descriptor has length 1 (40 R75). -/
  | opL1 (op : Byte)
  /-- `OP.L2`: any opcode whose descriptor has length 2 (40 R76). -/
  | opL2 (op imm8 : Byte)
  /-- `OP.L3`: any opcode whose descriptor has length 3 (40 R77). -/
  | opL3 (op lo hi : Byte)
  /-- `INT0`: video-blank-start (60 R121). -/
  | int0
  /-- `INT1`: display-controller-status (60 R122). -/
  | int1
  /-- `INT2`: timer-overflow (60 R123). -/
  | int2
  /-- `INT3`: serial-transfer (60 R124). -/
  | int3
  /-- `INT4`: input/joypad (60 R125). -/
  | int4
  /-- FT 0x00 `NOP`. -/
  | nop
  /-- FT 0x18 `JR e8`. -/
  | jrE8 (e8 : Byte)
  /-- FT 0x31 `LD SP,d16`. -/
  | ldSpD16 (d16 : Word)
  /-- FT 0x3C `INC A`. -/
  | incA
  /-- FT 0x3E `LD A,d8`. -/
  | ldAD8 (d8 : Byte)
  /-- FT 0x76 `HALT`. -/
  | halt
  /-- FT 0xC3 `JP a16`. -/
  | jpA16 (a16 : Word)
  /-- FT 0xD9 `RETI`. -/
  | reti
  /-- FT 0xEA `LD (a16),A`. -/
  | ldA16A (a16 : Word)
  /-- FT 0xF3 `DI`. -/
  | di
  /-- FT 0xFA `LD A,(a16)`. -/
  | ldAA16 (a16 : Word)
  /-- FT 0xFB `EI`. -/
  | ei
  /-- FT `ILL`: every opcode value not listed in another fixture row. -/
  | ill (op : Byte)
deriving DecidableEq, Repr

end Sys2Proof
end

