-- ==== Sys2Proof/WellFormed.lean ====
section
/-! DEFINITION. Which instructions a given Instruction Table has (30 R54, R59). -/

namespace Sys2Proof

/-- `i` is an instruction of the table `t`: a format class has the length the table gives its opcode and is not one of FT's
own rows; a fixture instruction is bound as FT binds it; a dispatch is injected, so no table can rule it out. -/
def Instr.wellFormed (t : Table) : Instr → Bool
  | .opL1 op => t.bindsClass op 1
  | .opL2 op _ => t.bindsClass op 2
  | .opL3 op _ _ => t.bindsClass op 3
  | .int0 => true
  | .int1 => true
  | .int2 => true
  | .int3 => true
  | .int4 => true
  | .nop => t.bindsFixture 0x00#8
  | .jrE8 _ => t.bindsFixture 0x18#8
  | .ldSpD16 _ => t.bindsFixture 0x31#8
  | .incA => t.bindsFixture 0x3C#8
  | .ldAD8 _ => t.bindsFixture 0x3E#8
  | .halt => t.bindsFixture 0x76#8
  | .jpA16 _ => t.bindsFixture 0xC3#8
  | .reti => t.bindsFixture 0xD9#8
  | .ldA16A _ => t.bindsFixture 0xEA#8
  | .di => t.bindsFixture 0xF3#8
  | .ldAA16 _ => t.bindsFixture 0xFA#8
  | .ei => t.bindsFixture 0xFB#8
  | .ill op => t.bindsFixture op && !isFixtureOpcode op

end Sys2Proof
end

