-- ==== Sys2Proof/Decode.lean ====
section
/-! DEFINITION. The decoder (30 R54: the length comes from the table), the encoder written from the same formats
(30 R51-R53), and the reading of a word of spec/opcode_table.json. -/

namespace Sys2Proof

/-- Why bytes are no instruction. -/
inductive DecodeReject where
  /-- There is no opcode byte. -/
  | noOpcode
  /-- The bytes end before the operand does. -/
  | operandMissing
  /-- The table gives the opcode a length outside 1, 2, 3 (41 R106). -/
  | lengthOutsideContract
deriving DecidableEq, Repr

/-- FT's instruction of a one-byte opcode (95 section 4). -/
def fixtureL1 (op : Byte) : Instr :=
  if op = 0x00#8 then .nop
  else if op = 0x3C#8 then .incA
  else if op = 0x76#8 then .halt
  else if op = 0xD9#8 then .reti
  else if op = 0xF3#8 then .di
  else if op = 0xFB#8 then .ei
  else .ill op

/-- FT's instruction of a two-byte opcode. -/
def fixtureL2 (op imm8 : Byte) : Instr :=
  if op = 0x18#8 then .jrE8 imm8
  else if op = 0x3E#8 then .ldAD8 imm8
  else .opL2 op imm8

/-- FT's instruction of a three-byte opcode. -/
def fixtureL3 (op lo hi : Byte) : Instr :=
  if op = 0x31#8 then .ldSpD16 (operandL3 lo hi)
  else if op = 0xC3#8 then .jpA16 (operandL3 lo hi)
  else if op = 0xEA#8 then .ldA16A (operandL3 lo hi)
  else if op = 0xFA#8 then .ldAA16 (operandL3 lo hi)
  else .opL3 op lo hi

/-- Decode the instruction at the head of `bs` under the table `t`: read the opcode, look it up, take `length - 1` operand
bytes (30 R54). An opcode that `t` binds as FT does gets FT's mnemonic (log 16). -/
def decode (t : Table) (bs : List Byte) : Except DecodeReject (Instr × List Byte) :=
  match bs with
  | [] => .error .noOpcode
  | op :: rest =>
    match (t.lookup op).length, rest with
    | 1, rest => .ok (if t.bindsFixture op then fixtureL1 op else .opL1 op, rest)
    | 2, imm8 :: rest => .ok (if t.bindsFixture op then fixtureL2 op imm8 else .opL2 op imm8, rest)
    | 3, lo :: hi :: rest => .ok (if t.bindsFixture op then fixtureL3 op lo hi else .opL3 op lo hi, rest)
    | 2, [] => .error .operandMissing
    | 3, [] => .error .operandMissing
    | 3, [_] => .error .operandMissing
    | _, _ => .error .lengthOutsideContract

/-- The dispatch of a source, as an instruction (60 R121-R125). -/
def intOf : IrqSource → Instr
  | .videoBlank => .int0
  | .displayStatus => .int1
  | .timer => .int2
  | .serial => .int3
  | .joypad => .int4

/-- The dispatch that `p` selects: the "encoding" of INT0 to INT4 is a row of the dispatch table (30 R59 (b), R60). -/
def decodeInterrupt (v : Vectors) (p : Byte) : Option Instr :=
  (scan v p).map fun row => intOf row.1

/-- The bytes of an instruction, first byte first; none for a dispatch, which is not fetched from memory (60 section 4). -/
def encode : Instr → Option (List Byte)
  | .opL1 op => some [op]
  | .opL2 op imm8 => some [op, imm8]
  | .opL3 op lo hi => some [op, lo, hi]
  | .int0 => none
  | .int1 => none
  | .int2 => none
  | .int3 => none
  | .int4 => none
  | .nop => some [0x00#8]
  | .jrE8 e8 => some [0x18#8, e8]
  | .ldSpD16 d16 => some [0x31#8, lowByte d16, highByte d16]
  | .incA => some [0x3C#8]
  | .ldAD8 d8 => some [0x3E#8, d8]
  | .halt => some [0x76#8]
  | .jpA16 a16 => some [0xC3#8, lowByte a16, highByte a16]
  | .reti => some [0xD9#8]
  | .ldA16A a16 => some [0xEA#8, lowByte a16, highByte a16]
  | .di => some [0xF3#8]
  | .ldAA16 a16 => some [0xFA#8, lowByte a16, highByte a16]
  | .ei => some [0xFB#8]
  | .ill op => some [op]

/-- The request pattern `p` that selects a dispatch alone: bit k (10 R20); none for a fetched instruction. -/
def encodeInterrupt : Instr → Option Byte
  | .int0 => some IrqSource.videoBlank.mask
  | .int1 => some IrqSource.displayStatus.mask
  | .int2 => some IrqSource.timer.mask
  | .int3 => some IrqSource.serial.mask
  | .int4 => some IrqSource.joypad.mask
  | .opL1 _ => none
  | .opL2 _ _ => none
  | .opL3 _ _ _ => none
  | .nop => none
  | .jrE8 _ => none
  | .ldSpD16 _ => none
  | .incA => none
  | .ldAD8 _ => none
  | .halt => none
  | .jpA16 _ => none
  | .reti => none
  | .ldA16A _ => none
  | .di => none
  | .ldAA16 _ => none
  | .ei => none
  | .ill _ => none

/-- The first three bytes of an instruction whose table word is `w`, the bits above `nbits` zero. -/
def tableWordBytes (nbits w : Nat) : List Byte :=
  let v := w % 2 ^ nbits
  [BitVec.ofNat 8 v, BitVec.ofNat 8 (v / 256), BitVec.ofNat 8 (v / 65536)]

/-- The source whose request bit alone is an 8-bit table word: rows INT0 to INT4 of the opcode table match the pattern `p`,
not an opcode (log 17). -/
def tableWordSource (nbits w : Nat) : Option IrqSource :=
  if nbits = 8 then
    [IrqSource.videoBlank, .displayStatus, .timer, .serial, .joypad].find? fun k => k.mask.toNat == w
  else none

/-- The Instruction Table under which a table word is read: FT; and FT with the word's opcode bound to a plain descriptor
of the word's own length where FT gives that opcode another length (log 17). -/
def tableWordTable (nbits w : Nat) : Table :=
  let op := BitVec.ofNat 8 w
  if nbits = 8 ∨ (fixtureTable.lookup op).length * 8 = nbits then fixtureTable
  else { fixtureTable with rows := (op, ⟨nbits / 8, 1, .nothing, true, ""⟩) :: fixtureTable.rows }

/-- The instruction the decoder reads from a word of spec/opcode_table.json of `nbits` bits, first byte in the low bits. -/
def decodeTableWord (nbits w : Nat) : Option Instr :=
  match tableWordSource nbits w with
  | some k => decodeInterrupt defaultVectors k.mask
  | none =>
    if nbits = 8 ∨ nbits = 16 ∨ nbits = 24 then
      match decode (tableWordTable nbits w) (tableWordBytes nbits w) with
      | .ok (i, _) => some i
      | .error _ => none
    else none

end Sys2Proof
end

