-- ==== Sys2Proof/Machine/State.lean ====
section
/-! DEFINITION. The state of the machine as plain data, the stops, and the state after reset (10 R10, R28). -/

namespace Sys2Proof.Machine

/-- The reasons to stop with a fault: there are none. The block raises no exception and no access fails (00 R7, 20 R31,
40 R84, 60 R110); nothing raises a fault (log 27). -/
inductive Fault where
deriving DecidableEq, Repr

/-- The reasons to refuse. -/
inductive Refusal where
  /-- Raised by an arm of `exec` without a meaning; there is none. Safe. -/
  | notModelled (mnemonic : String)
  /-- Raised by a clock tick whose Instruction Table breaks the contract (41 R106). Safe: nothing is claimed of it (log 15). -/
  | tableOutsideContract
deriving DecidableEq, Repr

/-- What the Bus maps at an address (20 R31, R38; log 7). -/
inductive RegionKind where
  /-- Plain memory: a read returns the byte last written (20 R40). -/
  | ram
  /-- Read-only memory: the Bus discards a write (70 R154, R162). -/
  | rom
  /-- Anything whose answer is the environment's choice: a read is a free value, a write is accepted (20 R31; log 8). -/
  | device
  /-- The controller's `requestedFlags` (41 R104; log 9). -/
  | intRequest
  /-- The controller's `enabledMask` (41 R104; log 9). -/
  | intEnable
deriving DecidableEq, Repr

/-- A range of Bus addresses of one kind. -/
structure Region where
  base : Nat
  size : Nat
  kind : RegionKind
deriving DecidableEq, Repr

/-- One action of the environment (20 R47). It cannot write the CPU state. -/
inductive EnvMove where
  /-- A peripheral sets bits of `requestedFlags`. -/
  | request (m : Byte)
  /-- Bits of `requestedFlags` are cleared. -/
  | withdraw (m : Byte)
  /-- `enabledMask` changes. -/
  | enable (v : Byte)
  /-- What a memory address returns changes: another Bus master wrote it. -/
  | poke (a : Word) (v : Byte)
  /-- The mapping changes: a bank switch, the boot program unmapped (70 R160). -/
  | remap (m : List Region)
deriving DecidableEq, Repr

/-- What the outside does to the block in one step: a period of the clock input, with the environment's moves at the three
operation boundaries (20 R48; log 12), or the reset input (70 R150; log 13). -/
inductive Input where
  | clock (before between after : List EnvMove)
  | reset
deriving DecidableEq, Repr

/-- One use of one of the four ports the block drives (00 R3 (b); log 19). -/
inductive PortEvent where
  /-- `BusRead(a)` answered `v`. -/
  | busRead (a : Word) (v : Byte)
  /-- `BusWrite(a, v)`. -/
  | busWrite (a : Word) (v : Byte)
  /-- `ICReadIF()` answered `v`. -/
  | readIF (v : Byte)
  /-- `ICReadIE()` answered `v`. -/
  | readIE (v : Byte)
  /-- `ICClearIF(m)`. -/
  | clearIF (m : Byte)
  /-- `ITAB(op)` was looked up. -/
  | lookup (op : Byte)
  /-- An effect was invoked with this operand. -/
  | effect (operand : Word)
deriving DecidableEq, Repr

/-- The state of the machine. The first six fields are the CPU state (10 R10); the next four belong to the Interrupt
Controller and the Bus; `cfg` is configuration (00 R6); the last three are the model's own (INVENTORY.md, State). -/
structure State where
  regs           : RegFile
  pc             : Word
  sp             : Word
  ime            : Bool
  halted         : Bool
  elapsedCycles  : Nat
  requestedFlags : Byte
  enabledMask    : Byte
  mem            : List Host.Cell
  busMap         : List Region
  cfg            : Params
  inputs         : List Input
  ports          : List PortEvent
  fresh          : Nat
deriving DecidableEq, Repr

/-- The state right after power-on: every field of the CPU state zero (10 R28); of the rest, what log entries 2, 4 to 12
and 19 name. -/
def State.reset : State where
  regs := ⟨[0x00#8], []⟩
  pc := 0x0000#16
  sp := 0x0000#16
  ime := false
  halted := false
  elapsedCycles := 0
  requestedFlags := 0x00#8
  enabledMask := 0x00#8
  mem := []
  busMap := [⟨0x0000, 0x100, .rom⟩]
  cfg := defaultParams
  inputs := []
  ports := []
  fresh := 0

end Sys2Proof.Machine
end

