-- ==== Sys2Proof/Machine/Ops.lean ====
section
/-! DEFINITION. The named operations: memory, the field updates, the Bus and Interrupt Controller ports, running an effect,
completing an instruction, taking an interrupt and returning from one, the environment's moves, and power-on. -/

namespace Sys2Proof.Machine

/-- What an address the memory list does not name reads as (MEM_RESET is open, 70 R152; log 6). -/
def Memory.unlisted : Byte := 0x00#8

/-- The byte at `a`. -/
def Memory.read : List Host.Cell → Nat → Byte
  | [], _ => Memory.unlisted
  | (b, v) :: rest, a => if b = a then v else Memory.read rest a

/-- Put the cell of `a` before the first greater address. -/
def Memory.insert : List Host.Cell → Nat → Byte → List Host.Cell
  | [], a, v => [(a, v)]
  | (b, w) :: rest, a, v => if a < b then (a, v) :: (b, w) :: rest else (b, w) :: Memory.insert rest a v

/-- Store `v` at `a`, in canonical form. -/
def Memory.write (m : List Host.Cell) (a : Nat) (v : Byte) : List Host.Cell :=
  let rest := m.filter fun c => c.1 != a
  if v = Memory.unlisted then rest else Memory.insert rest a v

/-- The canonical form: addresses strictly rising and inside the 16-bit space, no cell equal to what it would read as
unlisted. -/
def Memory.wf (m : List Host.Cell) : Bool :=
  decide (m.Pairwise fun c d => c.1 < d.1) && m.all fun c => decide (c.1 < 2 ^ 16) && c.2 != Memory.unlisted

/-- What the Bus maps at `a`: the first region that holds it, plain memory where none does. -/
def regionAt : List Region → Nat → RegionKind
  | [], _ => .ram
  | r :: rest, a => if r.base ≤ a ∧ a < r.base + r.size then r.kind else regionAt rest a

/-! ### Field updates -/

def State.setRegs (s : State) (v : RegFile) : State := { s with regs := v }
def State.setPc (s : State) (v : Word) : State := { s with pc := v }
def State.setSp (s : State) (v : Word) : State := { s with sp := v }
def State.setIme (s : State) (v : Bool) : State := { s with ime := v }
def State.setHalted (s : State) (v : Bool) : State := { s with halted := v }
def State.setElapsed (s : State) (v : Nat) : State := { s with elapsedCycles := v }
def State.setRequested (s : State) (v : Byte) : State := { s with requestedFlags := v }
def State.setEnabled (s : State) (v : Byte) : State := { s with enabledMask := v }
def State.setMem (s : State) (m : List Host.Cell) : State := { s with mem := m }
def State.setBusMap (s : State) (m : List Region) : State := { s with busMap := m }
def State.setInputs (s : State) (l : List Input) : State := { s with inputs := l }
def State.setPorts (s : State) (l : List PortEvent) : State := { s with ports := l }
def State.setFresh (s : State) (n : Nat) : State := { s with fresh := n }

/-- Record one use of a port, after those before it (20 R36; log 19). -/
def State.log (s : State) (e : PortEvent) : State := s.setPorts (s.ports ++ [e])

/-! ### The Bus port (20 R30, R31) -/

/-- What the Bus maps at an address. -/
def State.kindAt (s : State) (a : Word) : RegionKind := regionAt s.busMap a.toNat

/-- The byte memory holds at an address, whatever is mapped there. -/
def State.byteAt (s : State) (a : Word) : Byte := Memory.read s.mem a.toNat

/-- What `BusRead(a)` answers in this state. -/
def State.busValue (s : State) (a : Word) : Byte :=
  match s.kindAt a with
  | .ram => s.byteAt a
  | .rom => s.byteAt a
  | .device => Config.deviceRead s.fresh a
  | .intRequest => s.requestedFlags
  | .intEnable => s.enabledMask

/-- `BusRead(a)`: a device's answer uses up one free value. -/
def State.busRead (s : State) (a : Word) : Byte × State :=
  let v := s.busValue a
  let s1 := if s.kindAt a = .device then s.setFresh (s.fresh + 1) else s
  (v, s1.log (.busRead a v))

/-- `BusWrite(a, v)`: always accepted (20 R31), discarded by read-only memory (70 R162). -/
def State.busWrite (s : State) (a : Word) (v : Byte) : State :=
  let s1 := s.log (.busWrite a v)
  match s.kindAt a with
  | .ram => s1.setMem (Memory.write s1.mem a.toNat v)
  | .rom => s1
  | .device => s1
  | .intRequest => s1.setRequested v
  | .intEnable => s1.setEnabled v

/-- The operand bytes of an instruction of this length, in ascending address order (40 R70, D8). -/
def State.fetchOperand (s : State) : Nat → List Byte × State
  | 2 => let r := s.busRead (s.pc + 1); ([r.1], r.2)
  | 3 => let r := s.busRead (s.pc + 1); let q := r.2.busRead (s.pc + 2); ([r.1, q.1], q.2)
  | _ => ([], s)

/-! ### The Interrupt Controller port (60 R139) -/

/-- `ICReadIF()`. -/
def State.readIF (s : State) : Byte × State := (s.requestedFlags, s.log (.readIF s.requestedFlags))

/-- `ICReadIE()`. -/
def State.readIE (s : State) : Byte × State := (s.enabledMask, s.log (.readIE s.enabledMask))

/-- `ICClearIF(m)`: `requestedFlags <- requestedFlags & ~m`. -/
def State.clearIF (s : State) (m : Byte) : State :=
  (s.log (.clearIF m)).setRequested (s.requestedFlags &&& ~~~m)

/-! ### Effects (41 R93) -/

/-- `x[i]`: 0 where the register file has no such 8-bit register. -/
def RegFile.get8 (r : RegFile) (i : Nat) : Byte := r.r8.getD i 0#8

/-- `x[i] <- v`: the set of registers is fixed (10 R11), so an index outside it writes nothing. -/
def RegFile.set8 (r : RegFile) (i : Nat) (v : Byte) : RegFile := { r with r8 := r.r8.set i v }

/-- The 16-bit register `i`: 0 where there is none. -/
def RegFile.get16 (r : RegFile) (i : Nat) : Word := r.r16.getD i 0#16

/-- Write the 16-bit register `i`, if there is one. -/
def RegFile.set16 (r : RegFile) (i : Nat) (v : Word) : RegFile := { r with r16 := r.r16.set i v }

/-- Every element zero (10 R11, R28). -/
def RegFile.zeroed (r : RegFile) : RegFile := ⟨r.r8.map fun _ => 0#8, r.r16.map fun _ => 0#16⟩

/-- What an effect sees of the CPU state (41 R94). -/
def State.view (s : State) : CpuView := ⟨s.regs, s.pc, s.sp, s.ime, s.halted⟩

/-- One assignment of an effect. -/
def State.put (s : State) : FieldWrite → State
  | .r8 i v => s.setRegs (RegFile.set8 s.regs i v)
  | .r16 i v => s.setRegs (RegFile.set16 s.regs i v)
  | .pc v => s.setPc v
  | .sp v => s.setSp v
  | .ime v => s.setIme v
  | .halt => s.setHalted true

/-- Run an effect to its end, within the tick (40 R71). -/
def runEffect : Effect → State → State
  | .done, s => s
  | .get k, s => runEffect (k s.view) s
  | .put w next, s => runEffect next (s.put w)
  | .busRead a k, s => let r := s.busRead a; runEffect (k r.1) r.2
  | .busWrite a v next, s => runEffect next (s.busWrite a v)

/-- Steps 4b, 4c and 4d of a completion tick (40 R71-R73): the effect once, then `length` added to the `pc` the effect left
if the descriptor says so (D20), then the count cleared. -/
def completeInstr (e : Effect) (operand : Word) (length : Nat) (advances : Bool) (s : State) : State :=
  let s1 := runEffect e (s.log (.effect operand))
  let s2 := if advances then s1.setPc (s1.pc + BitVec.ofNat 16 length) else s1
  s2.setElapsed 0

/-! ### Taking an interrupt, and returning from one -/

/-- Step 3: push `pc`, high byte at `sp - 1`, low byte at `sp - 2` (60 R116, 20 R33, C1). -/
def State.pushPc (s : State) : State :=
  let s1 := s.busWrite (s.sp - 1) (highByte s.pc)
  let s2 := s1.busWrite (s.sp - 2) (lowByte s.pc)
  s2.setSp (s.sp - 2)

/-- Step 7: acknowledge (60 R120, R127; R126 where no source won). -/
def State.acknowledge (s : State) (winner : Option IrqSource) : State :=
  match s.cfg.ackPolicy, winner with
  | .clearAll, _ => s.clearIF 0xFF#8
  | .clearServiced, some k => s.clearIF k.mask
  | .clearServiced, none => s

/-- Taking an interrupt: steps 3 to 7 of `handleInterrupts` (60 R116-R120). Without a winner, which only the guard
`eachNonzero` lets happen, `pc` stays (60 R126, D13). -/
def takeInterrupt (winner : Option IrqSource) (s : State) : State :=
  let s1 := s.pushPc
  let s2 := s1.setIme false
  let s3 := s2.setHalted false
  let s4 := match winner with
    | some k => s3.setPc (s3.cfg.vec.get k)
    | none => s3
  s4.acknowledge winner

/-- The return from an interrupt, as an effect (41 R102, 60 R133): pop low byte, then high byte, into `pc`; re-enable
interrupts if asked to. -/
def returnEffect (reenable : Bool) : Effect :=
  .get fun v =>
  .busRead v.sp fun lo =>
  .busRead (v.sp + 1) fun hi =>
  .put (.sp (v.sp + 2)) <|
  .put (.pc (concat hi lo)) <|
  if reenable then .put (.ime true) .done else .done

/-! ### The environment and reset -/

/-- One move of the environment (20 R47). -/
def State.envMove (s : State) : EnvMove → State
  | .request m => s.setRequested (s.requestedFlags ||| m)
  | .withdraw m => s.setRequested (s.requestedFlags &&& ~~~m)
  | .enable v => s.setEnabled v
  | .poke a v => s.setMem (Memory.write s.mem a.toNat v)
  | .remap m => s.setBusMap m

/-- The environment's moves at one operation boundary, in order (20 R48). -/
def State.environment (s : State) (moves : List EnvMove) : State := moves.foldl State.envMove s

/-- The reset input: the CPU state is re-created with all fields zeroed, no port is used (70 R150, D23). -/
def State.powerOn (s : State) : State :=
  (((((s.setRegs (RegFile.zeroed s.regs)).setPc 0#16).setSp 0#16).setIme false).setHalted false).setElapsed 0

/-- Go on with the next state of an outcome. -/
def andThen (o : Host.Outcome State Fault Refusal) (f : State → Host.Outcome State Fault Refusal) :
    Host.Outcome State Fault Refusal :=
  match o with
  | .next s => f s
  | .fault r => .fault r
  | .refused r => .refused r

end Sys2Proof.Machine
end

