-- ==== Sys2Proof/Machine/Effects.lean ====
section
/-! DEFINITION. The effects: FT's twelve (95 section 4), the effect classes the spec describes (41 R97, R98), and what a
descriptor's effect name stands for. -/

namespace Sys2Proof.Machine

/-- The index of FT's one register `x[A]` in the register file (95 section 4). -/
def regA : Nat := 0

/-- `x[A]` as an effect sees it. -/
def viewA (v : CpuView) : Byte := RegFile.get8 v.regs regA

/-- NOP and ILL: nothing. -/
def nothingEffect : Effect := .done

/-- JR: `pc <- pc +16 sext_16(operand[7:0])`, displacement from the next instruction since the flag is true (41 R98). -/
def jumpRelativeEffect (operand : Word) : Effect :=
  .get fun v => .put (.pc (v.pc + sext16 (lowByte operand))) .done

/-- LD SP,d16: `sp <- operand`. -/
def loadSpEffect (operand : Word) : Effect := .put (.sp operand) .done

/-- INC A: `x[A] <- (x[A] + 1) mod 256`. -/
def incAEffect : Effect := .get fun v => .put (.r8 regA (viewA v + 1)) .done

/-- LD A,d8: `x[A] <- operand[7:0]`. -/
def loadImmediateAEffect (operand : Word) : Effect := .put (.r8 regA (lowByte operand)) .done

/-- HALT: `halted <- 1` (41 R101). -/
def haltEffect : Effect := .put .halt .done

/-- JP a16, and every unconditional jump: `pc <- target`, with the flag false (41 R97). -/
def jumpEffect (target : Word) : Effect := .put (.pc target) .done

/-- LD (a16),A: `BusWrite(operand, x[A])`. -/
def storeAEffect (operand : Word) : Effect := .get fun v => .busWrite operand (viewA v) .done

/-- LD A,(a16): `x[A] <- BusRead(operand)`. -/
def loadAEffect (operand : Word) : Effect := .busRead operand fun b => .put (.r8 regA b) .done

/-- EI and DI: `ime <- v` (41 R100). -/
def setImeEffect (v : Bool) : Effect := .put (.ime v) .done

/-- A call: push the address of the next instruction in the layout of the interrupt push, then jump; flag false (41 R97). -/
def callEffect (length : Nat) (target : Word) : Effect :=
  .get fun v =>
  let next := v.pc + BitVec.ofNat 16 length
  .busWrite (v.sp - 1) (highByte next) <|
  .busWrite (v.sp - 2) (lowByte next) <|
  .put (.sp (v.sp - 2)) <|
  .put (.pc target) .done

/-- A conditional jump for a descriptor whose flag is false (41 R98). -/
def condJumpEffect (taken : CpuView → Bool) (length : Nat) (target : Word) : Effect :=
  .get fun v => .put (.pc (if taken v then target else v.pc + BitVec.ofNat 16 length)) .done

/-- A conditional jump for a descriptor whose flag is true (41 R98). -/
def condJumpAdvancingEffect (taken : CpuView → Bool) (length : Nat) (target : Word) : Effect :=
  .get fun v => if taken v then .put (.pc (target - BitVec.ofNat 16 length)) .done else .done

/-- The effect a descriptor names, for the operand it is invoked with (41 R90). -/
def effectOf : EffectRef → Word → Effect
  | .nothing, _ => nothingEffect
  | .jumpRelative, operand => jumpRelativeEffect operand
  | .loadSp, operand => loadSpEffect operand
  | .incA, _ => incAEffect
  | .loadImmediateA, operand => loadImmediateAEffect operand
  | .halt, _ => haltEffect
  | .jump, operand => jumpEffect operand
  | .returnInterrupt, _ => returnEffect true
  | .storeA, operand => storeAEffect operand
  | .disableInterrupts, _ => setImeEffect false
  | .loadA, operand => loadAEffect operand
  | .enableInterrupts, _ => setImeEffect true
  | .external n, operand => Config.effect n operand

end Sys2Proof.Machine
end

