-- ==== Sys2Proof/Machine/FixtureControl.lean ====
section
/-! DEFINITION. The control and system instructions of the fixture table FT (95 section 4), each the completion tick of its
row. -/

namespace Sys2Proof.Machine

/-- JR e8: length 2, flag true, so that the block adds 2 to what the effect wrote (40 R72). -/
def execJrE8 (e8 : Byte) (s : State) : Host.Outcome State Fault Refusal :=
  .next (completeInstr (jumpRelativeEffect (operandL2 e8)) (operandL2 e8) 2 true s)

/-- JP a16: length 3, flag false. -/
def execJpA16 (a16 : Word) (s : State) : Host.Outcome State Fault Refusal :=
  .next (completeInstr (jumpEffect a16) a16 3 false s)

/-- HALT: length 1, flag true. -/
def execHalt (s : State) : Host.Outcome State Fault Refusal :=
  .next (completeInstr haltEffect operandL1 1 true s)

/-- RETI: length 1, flag false; pops `pc` and sets `ime`. -/
def execReti (s : State) : Host.Outcome State Fault Refusal :=
  .next (completeInstr (returnEffect true) operandL1 1 false s)

/-- DI: length 1, flag true. -/
def execDi (s : State) : Host.Outcome State Fault Refusal :=
  .next (completeInstr (setImeEffect false) operandL1 1 true s)

/-- EI: length 1, flag true; takes effect at once (60 R129). -/
def execEi (s : State) : Host.Outcome State Fault Refusal :=
  .next (completeInstr (setImeEffect true) operandL1 1 true s)

/-- ILL: length 1, flag false, so that the opcode repeats (41 R103). -/
def execIll (_op : Byte) (s : State) : Host.Outcome State Fault Refusal :=
  .next (completeInstr nothingEffect operandL1 1 false s)

end Sys2Proof.Machine
end

