-- ==== Sys2Proof/Machine/FixtureData.lean ====
section
/-! DEFINITION. The data instructions of the fixture table FT (95 section 4), each the completion tick of its row. -/

namespace Sys2Proof.Machine

/-- NOP: length 1, flag true. -/
def execNop (s : State) : Host.Outcome State Fault Refusal :=
  .next (completeInstr nothingEffect operandL1 1 true s)

/-- LD SP,d16: length 3, flag true. -/
def execLdSpD16 (d16 : Word) (s : State) : Host.Outcome State Fault Refusal :=
  .next (completeInstr (loadSpEffect d16) d16 3 true s)

/-- INC A: length 1, flag true. -/
def execIncA (s : State) : Host.Outcome State Fault Refusal :=
  .next (completeInstr incAEffect operandL1 1 true s)

/-- LD A,d8: length 2, flag true. -/
def execLdAD8 (d8 : Byte) (s : State) : Host.Outcome State Fault Refusal :=
  .next (completeInstr (loadImmediateAEffect (operandL2 d8)) (operandL2 d8) 2 true s)

/-- LD (a16),A: length 3, flag true. -/
def execLdA16A (a16 : Word) (s : State) : Host.Outcome State Fault Refusal :=
  .next (completeInstr (storeAEffect a16) a16 3 true s)

/-- LD A,(a16): length 3, flag true. -/
def execLdAA16 (a16 : Word) (s : State) : Host.Outcome State Fault Refusal :=
  .next (completeInstr (loadAEffect a16) a16 3 true s)

end Sys2Proof.Machine
end

