-- ==== Sys2Proof/Machine/FormatClass.lean ====
section
/-! DEFINITION. The completion tick of the three format classes (40 R75-R77), under the bound Instruction Table. -/

namespace Sys2Proof.Machine

/-- OP.L1 (40 R75). -/
def execOpL1 (op : Byte) (s : State) : Host.Outcome State Fault Refusal :=
  let d := s.cfg.itab.lookup op
  .next (completeInstr (effectOf d.effect operandL1) operandL1 1 d.advancesProgramCounter s)

/-- OP.L2 (40 R76). -/
def execOpL2 (op imm8 : Byte) (s : State) : Host.Outcome State Fault Refusal :=
  let d := s.cfg.itab.lookup op
  .next (completeInstr (effectOf d.effect (operandL2 imm8)) (operandL2 imm8) 2 d.advancesProgramCounter s)

/-- OP.L3 (40 R77). -/
def execOpL3 (op lo hi : Byte) (s : State) : Host.Outcome State Fault Refusal :=
  let d := s.cfg.itab.lookup op
  .next (completeInstr (effectOf d.effect (operandL3 lo hi)) (operandL3 lo hi) 3 d.advancesProgramCounter s)

end Sys2Proof.Machine
end

