-- ==== Sys2Proof/Machine/InterruptDispatch.lean ====
section
/-! DEFINITION. The five dispatches (60 R121-R125). Their condition is tested where they are selected, in
`handleInterrupts` (log 18). -/

namespace Sys2Proof.Machine

/-- INT0, video-blank-start (60 R121). -/
def execInt0 (s : State) : Host.Outcome State Fault Refusal := .next (takeInterrupt (some .videoBlank) s)

/-- INT1, display-controller-status (60 R122). -/
def execInt1 (s : State) : Host.Outcome State Fault Refusal := .next (takeInterrupt (some .displayStatus) s)

/-- INT2, timer-overflow (60 R123). -/
def execInt2 (s : State) : Host.Outcome State Fault Refusal := .next (takeInterrupt (some .timer) s)

/-- INT3, serial-transfer (60 R124). -/
def execInt3 (s : State) : Host.Outcome State Fault Refusal := .next (takeInterrupt (some .serial) s)

/-- INT4, input/joypad (60 R125). -/
def execInt4 (s : State) : Host.Outcome State Fault Refusal := .next (takeInterrupt (some .joypad) s)

end Sys2Proof.Machine
end

