-- ==== Sys2Proof/Machine/Dispatch.lean ====
section
/-! DEFINITION. The meaning of every instruction: one arm per constructor of Instr. -/

namespace Sys2Proof.Machine

def exec (i : Instr) (s : State) : Host.Outcome State Fault Refusal :=
  match i with
  | .opL1 op => Sys2Proof.Machine.execOpL1 op s
  | .opL2 op imm8 => Sys2Proof.Machine.execOpL2 op imm8 s
  | .opL3 op lo hi => Sys2Proof.Machine.execOpL3 op lo hi s
  | .int0 => Sys2Proof.Machine.execInt0 s
  | .int1 => Sys2Proof.Machine.execInt1 s
  | .int2 => Sys2Proof.Machine.execInt2 s
  | .int3 => Sys2Proof.Machine.execInt3 s
  | .int4 => Sys2Proof.Machine.execInt4 s
  | .nop => Sys2Proof.Machine.execNop s
  | .jrE8 e8 => Sys2Proof.Machine.execJrE8 e8 s
  | .ldSpD16 d16 => Sys2Proof.Machine.execLdSpD16 d16 s
  | .incA => Sys2Proof.Machine.execIncA s
  | .ldAD8 d8 => Sys2Proof.Machine.execLdAD8 d8 s
  | .halt => Sys2Proof.Machine.execHalt s
  | .jpA16 a16 => Sys2Proof.Machine.execJpA16 a16 s
  | .reti => Sys2Proof.Machine.execReti s
  | .ldA16A a16 => Sys2Proof.Machine.execLdA16A a16 s
  | .di => Sys2Proof.Machine.execDi s
  | .ldAA16 a16 => Sys2Proof.Machine.execLdAA16 a16 s
  | .ei => Sys2Proof.Machine.execEi s
  | .ill op => Sys2Proof.Machine.execIll op s

end Sys2Proof.Machine
end

