-- ==== Sys2Proof/Machine/Cycle.lean ====
section
/-! DEFINITION. `cycle`: the fetch/execute timing loop (40 R66-R73, R81). -/

namespace Sys2Proof.Machine

/-- Steps 1 to 3 up to the comparison: read the opcode at `pc`, look it up, count the tick (40 R67-R69). -/
def State.fetchOpcode (s : State) : Byte × State :=
  let r := s.busRead s.pc
  (r.1, (r.2.log (.lookup r.1)).setElapsed (s.elapsedCycles + 1))

/-- Steps 4a to 4d: decode the operand from the current `pc`, then run the instruction (40 R70-R73). A table within the
contract always decodes (30 R61). -/
def completionTick (op : Byte) (s : State) : Host.Outcome State Fault Refusal :=
  let r := s.fetchOperand (s.cfg.itab.lookup op).length
  match decode s.cfg.itab (op :: r.1) with
  | .ok (i, _) => exec i r.2
  | .error _ => .refused .tableOutsideContract

/-- `cycle` (40 R66). With `haltGatesCycle` a halted core does nothing (40 R81). -/
def cycle (s : State) : Host.Outcome State Fault Refusal :=
  if s.halted && s.cfg.haltGatesCycle then .next s
  else
    let r := s.fetchOpcode
    if r.2.elapsedCycles < (s.cfg.itab.lookup r.1).duration then .next r.2
    else completionTick r.1 r.2

end Sys2Proof.Machine
end

