-- ==== Sys2Proof/Machine/HandleInterrupts.lean ====
section
/-! DEFINITION. `handleInterrupts`: the interrupt priority dispatch controller (60 R113-R120, R126). -/

namespace Sys2Proof.Machine

/-- Steps 3 to 7, with the samples of step 2: the winner's dispatch, or, where the guard let a call through without a
winner, the dispatch that leaves `pc` (60 R126). -/
def dispatch (rf em : Byte) (s : State) : Host.Outcome State Fault Refusal :=
  match decodeInterrupt s.cfg.vec (pendingEnabled rf em) with
  | some i => exec i s
  | none => .next (takeInterrupt none s)

/-- `handleInterrupts` (60 R113): the gate of step 1, the samples and the guard of step 2, the dispatch. -/
def handleInterrupts (s : State) : Host.Outcome State Fault Refusal :=
  if s.ime then
    let f := s.readIF
    let e := f.2.readIE
    if guardPasses s.cfg.irqGuard f.1 e.1 then dispatch f.1 e.1 e.2 else .next e.2
  else .next s

end Sys2Proof.Machine
end

