-- ==== Sys2Proof/Machine/Tick.lean ====
section
/-! DEFINITION. The tick (40 R65), the environment's moves at its three boundaries (20 R48), and the inputs. -/

namespace Sys2Proof.Machine

/-- `Tick()`: `cycle`, then `handleInterrupts` (40 R65), with the environment before, between and after (20 R48). -/
def tick (before between after : List EnvMove) (s : State) : Host.Outcome State Fault Refusal :=
  andThen (cycle (s.environment before)) fun s1 =>
  andThen (handleInterrupts (s1.environment between)) fun s2 =>
  .next (s2.environment after)

/-- A period of the clock input: a table outside the contract is refused (41 R106); the port log holds this tick only. -/
def clockTick (before between after : List EnvMove) (s : State) : Host.Outcome State Fault Refusal :=
  if s.cfg.itab.ok s.cfg.dmax then tick before between after (s.setPorts [])
  else .refused .tableOutsideContract

/-- One input: a clock period or the reset input (70 R150). -/
def runInput (i : Input) (s : State) : Host.Outcome State Fault Refusal :=
  match i with
  | .clock before between after => clockTick before between after s
  | .reset => .next (s.setPorts []).powerOn

/-- The next input of the queue; where the queue is empty, a clock period in which the environment does nothing (log 12). -/
def nextInput (s : State) : Host.Outcome State Fault Refusal :=
  match s.inputs with
  | [] => clockTick [] [] [] s
  | i :: rest => runInput i (s.setInputs rest)

end Sys2Proof.Machine
end

