-- ==== Sys2Proof/Machine/Step.lean ====
section
/-! DEFINITION. The step of the machine, and the placing of a table word where the next step runs it. -/

namespace Sys2Proof.Machine

/-- One step: one input of the environment, as a rule one tick (40 R65). -/
def step (s : State) : Host.Outcome State Fault Refusal := nextInput s

/-- `s` with the instruction of a table word where the very next step runs it (log 17). A fetched instruction: its bytes at
`pc` in memory, the table under which the word is read, the count one short of the descriptor's duration, no halt gate, no
input pending. A dispatch: `ime` set, its source requested and enabled, FT bound and the count zero, so that `cycle` of that
tick is in flight. -/
def State.withFetchWord (s : State) (nbits w : Nat) : State :=
  let t := tableWordTable nbits w
  let p : State := { s with cfg := { s.cfg with itab := t, haltGatesCycle := false, wEc := 8 }, inputs := [] }
  match tableWordSource nbits w with
  | some k =>
    { p with ime := true, requestedFlags := k.mask, enabledMask := k.mask, elapsedCycles := 0 }
  | none =>
    let bytes := tableWordBytes nbits w
    let mem0 := Memory.write p.mem p.pc.toNat (bytes.getD 0 0)
    let mem1 := Memory.write mem0 (p.pc + 1).toNat (bytes.getD 1 0)
    let mem2 := Memory.write mem1 (p.pc + 2).toNat (bytes.getD 2 0)
    { p with
      mem := mem2
      busMap := p.busMap.filter fun r => r.kind = .ram || r.kind = .rom
      elapsedCycles := (t.lookup (bytes.getD 0 0)).duration - 1 }

end Sys2Proof.Machine
end

