-- ==== Sys2Proof/Safety.lean ====
section
/-! DEFINITION. What claims are stated in terms of: the invariants, a safe step, plain fetches, and what a fetch puts on the
ports. -/

namespace Sys2Proof.Machine

/-- The bound table is within the contract of 41 R91 and R92, all 256 descriptors of it. -/
def State.tableOk (s : State) : Bool := s.cfg.itab.ok s.cfg.dmax

/-- Memory is in canonical form, so that equal memories are equal data. -/
def State.memWf (s : State) : Bool := Memory.wf s.mem

/-- The bound of 10 R26 between two `cycle` calls: `elapsedCycles <= DMAX - 1`. -/
def State.countBounded (s : State) : Bool := decide (s.elapsedCycles + 1 ≤ s.cfg.dmax)

/-- A step that answers a next state: no fault, no refusal. -/
def State.safe (s : State) : Prop := ∃ t, step s = .next t

/-- The address is plain memory, of either kind: a read answers the byte held and changes nothing. -/
def State.plainAt (s : State) (a : Word) : Bool := s.kindAt a == .ram || s.kindAt a == .rom

/-- The address is plain memory that keeps what is written. -/
def State.ramAt (s : State) (a : Word) : Bool := s.kindAt a == .ram

/-- The two addresses an interrupt push writes are RAM. -/
def State.stackInRam (s : State) : Bool := s.ramAt (s.sp - 1) && s.ramAt (s.sp - 2)

/-- The halt gate of 40 R81 is closed. -/
def State.gated (s : State) : Bool := s.halted && s.cfg.haltGatesCycle

/-- `handleInterrupts` would return at its step 1 or step 2 (60 R114, R115). -/
def State.noDispatch (s : State) : Bool :=
  !s.ime || !guardPasses s.cfg.irqGuard s.requestedFlags s.enabledMask

/-- The descriptor of the opcode byte that memory holds at `pc`. -/
def State.descriptorAt (s : State) : Descriptor := s.cfg.itab.lookup (s.byteAt s.pc)

/-- The bytes of an instruction of this length at `pc` are plain memory. -/
def State.plainFetch (s : State) (length : Nat) : Bool :=
  s.plainAt s.pc && (decide (length < 2) || s.plainAt (s.pc + 1)) && (decide (length < 3) || s.plainAt (s.pc + 2))

/-- The operand that memory holds after the opcode at `pc` (30 R55-R57). -/
def State.operandAt (s : State) (length : Nat) : Word :=
  if length = 2 then operandL2 (s.byteAt (s.pc + 1))
  else if length = 3 then operandL3 (s.byteAt (s.pc + 1)) (s.byteAt (s.pc + 2))
  else operandL1

/-- Steps 1 and 2 of `cycle` on the ports (40 R67, R68). -/
def State.opcodePorts (s : State) : List PortEvent := [.busRead s.pc (s.byteAt s.pc), .lookup (s.byteAt s.pc)]

/-- Step 4a of `cycle` on the ports, in ascending address order (20 R41). -/
def State.operandPorts (s : State) (length : Nat) : List PortEvent :=
  if length = 2 then [.busRead (s.pc + 1) (s.byteAt (s.pc + 1))]
  else if length = 3 then
    [.busRead (s.pc + 1) (s.byteAt (s.pc + 1)), .busRead (s.pc + 2) (s.byteAt (s.pc + 2))]
  else []

/-- The state in which an instruction of this length is executed: the tick counted, its bytes read. -/
def State.fetched (s : State) (length : Nat) : State :=
  { s with elapsedCycles := s.elapsedCycles + 1, ports := s.ports ++ s.opcodePorts ++ s.operandPorts length }

/-- `s` once the Bus has answered a read of `a`: a device's answer has used up one free value (log 8). -/
def State.afterRead (s : State) (a : Word) : State :=
  { s with fresh := if s.kindAt a = .device then s.fresh + 1 else s.fresh }

/-- What the Bus answers to the opcode read at `pc`, whatever is mapped there (40 R67). -/
def State.opcodeAnswer (s : State) : Byte := s.busValue s.pc

/-- What the Bus answers to the read of `pc + 1` that follows the opcode read (40 R70). -/
def State.lowAnswer (s : State) : Byte := (s.afterRead s.pc).busValue (s.pc + 1)

/-- What the Bus answers to the read of `pc + 2` that follows those two (40 R70). -/
def State.highAnswer (s : State) : Byte := ((s.afterRead s.pc).afterRead (s.pc + 1)).busValue (s.pc + 2)

/-- The operand that the Bus's answers form (30 R55-R57). -/
def State.operandAnswer (s : State) (length : Nat) : Word :=
  if length = 2 then operandL2 s.lowAnswer
  else if length = 3 then operandL3 s.lowAnswer s.highAnswer
  else operandL1

/-- `s` after the reads of an instruction of this length: the free values that devices among its bytes used up. -/
def State.afterFetch (s : State) (length : Nat) : State :=
  if length = 2 then (s.afterRead s.pc).afterRead (s.pc + 1)
  else if length = 3 then ((s.afterRead s.pc).afterRead (s.pc + 1)).afterRead (s.pc + 2)
  else s.afterRead s.pc

/-- Those reads on the ports, with the lookup (20 R41). -/
def State.answerPorts (s : State) (length : Nat) : List PortEvent :=
  [.busRead s.pc s.opcodeAnswer, .lookup s.opcodeAnswer] ++
    if length = 2 then [.busRead (s.pc + 1) s.lowAnswer]
    else if length = 3 then [.busRead (s.pc + 1) s.lowAnswer, .busRead (s.pc + 2) s.highAnswer]
    else []

/-- The state in which an instruction of this length is executed, on any Bus: `fetched` without the premise that its bytes
are plain memory. -/
def State.answered (s : State) (length : Nat) : State :=
  { s.afterFetch length with elapsedCycles := s.elapsedCycles + 1, ports := s.ports ++ s.answerPorts length }

/-- What a controller register that held `old` holds once `pc` is pushed: the byte pushed last to an address that the Bus maps
onto it, if any was (60 R116; log 9). -/
def State.pushedOnto (s : State) (kind : RegionKind) (old : Byte) : Byte :=
  if s.kindAt (s.sp - 2) = kind then lowByte s.pc
  else if s.kindAt (s.sp - 1) = kind then highByte s.pc
  else old

/-- Neither pushed address is mapped onto the register of this kind. -/
def State.pushSpares (s : State) (kind : RegionKind) : Bool :=
  s.kindAt (s.sp - 1) != kind && s.kindAt (s.sp - 2) != kind

/-- The source that step 6 selects, if any (60 R119). -/
def State.winner (s : State) : Option IrqSource :=
  (scan s.cfg.vec (pendingEnabled s.requestedFlags s.enabledMask)).map fun row => row.1

/-- The two controller reads of step 2 (60 R115). -/
def State.sampled (s : State) : State :=
  { s with ports := s.ports ++ [.readIF s.requestedFlags, .readIE s.enabledMask] }

/-- The number of registers of each width (10 R11: a fixed set). -/
def RegFile.shape (r : RegFile) : Nat × Nat := (r.r8.length, r.r16.length)

/-- The register file has FT's register `x[A]` (95 section 4). -/
def State.hasA (s : State) : Bool := decide (regA < s.regs.r8.length)

/-- `x[A]`. -/
def State.regAValue (s : State) : Byte := RegFile.get8 s.regs regA

/-- No reset input is pending. -/
def State.noReset (s : State) : Bool := s.inputs.all fun i => i != .reset

/-- The format class of a fetched instruction: the class instruction with the same bytes (30 R59). -/
def classOf (i : Instr) : Instr :=
  match encode i with
  | some [op] => .opL1 op
  | some [op, imm8] => .opL2 op imm8
  | some [op, lo, hi] => .opL3 op lo hi
  | _ => i

/-- The hang of 60 R143: halted, the gate closed, interrupts off, and no reset to come. -/
def State.hung (s : State) : Bool := s.gated && !s.ime && s.noReset && s.tableOk

end Sys2Proof.Machine
end

