-- ==== Sys2Proof/Certificates/Slice0/Obligations.lean ====
section
/-! DEFINITION. The statements for the provers. Each docstring names the rules of spec/ the statement formalises. -/

open Sys2Proof Sys2Proof.Machine

/-! ### Reset -/

/-- 10 R28: after reset every field of the CPU state is zero. -/
def Obligations.ResetStateIsZero : Prop :=
  State.reset.pc = 0x0000#16 ∧ State.reset.sp = 0x0000#16 ∧ State.reset.ime = false ∧ State.reset.halted = false ∧
  State.reset.elapsedCycles = 0 ∧ (∀ v ∈ State.reset.regs.r8, v = 0#8) ∧ (∀ v ∈ State.reset.regs.r16, v = 0#16)

/-- 70 R150: the reset input re-creates the CPU state with all fields zeroed, uses no port and leaves what is outside the
block alone. That it takes a step of its own is the model's choice (log 13). -/
def Obligations.ResetInputRecreatesCpuState : Prop :=
  ∀ (s : State) (rest : List Input), s.inputs = .reset :: rest →
    ∃ t, step s = .next t ∧ t.pc = 0x0000#16 ∧ t.sp = 0x0000#16 ∧ t.ime = false ∧ t.halted = false ∧ t.elapsedCycles = 0 ∧
      (∀ v ∈ t.regs.r8, v = 0#8) ∧ (∀ v ∈ t.regs.r16, v = 0#16) ∧ RegFile.shape t.regs = RegFile.shape s.regs ∧
      t.ports = [] ∧ t.requestedFlags = s.requestedFlags ∧ t.enabledMask = s.enabledMask ∧ t.mem = s.mem ∧
      t.busMap = s.busMap ∧ t.cfg = s.cfg ∧ t.inputs = rest ∧ t.fresh = s.fresh

/-- 70 R151: from the power-on state, whatever the Bus, the controller and the table hold, the first Bus access is the read
of the opcode at 0x0000. -/
def Obligations.FirstFetchIsAtZero : Prop :=
  ∀ s : State, s.tableOk = true → s.inputs = [] →
    ∃ t later, step s.powerOn = .next t ∧ t.ports = .busRead 0x0000#16 (s.busValue 0x0000#16) :: later

/-! ### Decoding -/

/-- 30 R50-R54: decoding the bytes of a well-formed instruction gives it back, with every operand, for every table. -/
def Obligations.DecodeOfEncode : Prop :=
  ∀ (t : Table) (i : Instr) (bs rest : List Byte), i.wellFormed t = true → encode i = some bs →
    decode t (bs ++ rest) = .ok (i, rest)

/-- The other direction: what the decoder reads is well-formed, and its encoding is the bytes read, as many as the table's
`length` (30 R50, R54). -/
def Obligations.EncodeOfDecode : Prop :=
  ∀ (t : Table) (bs rest : List Byte) (i : Instr), decode t bs = .ok (i, rest) →
    i.wellFormed t = true ∧ ∃ op operands, encode i = some (op :: operands) ∧ bs = op :: operands ++ rest ∧
      (op :: operands).length = (t.lookup op).length

/-- 30 R59, R61: under a table within the contract every opcode decodes, whatever bytes follow. -/
def Obligations.DecodeIsTotal : Prop :=
  ∀ (t : Table) (dmax : Nat) (op b c : Byte) (rest : List Byte), t.ok dmax = true →
    ∃ i left, decode t (op :: b :: c :: rest) = .ok (i, left)

/-- Words written out from the spec: 95 programs P1, P2 and P4, 30 R56 and R57, and request patterns of 60 R121, R123. -/
def Obligations.DecodeWords : Prop :=
  decode fixtureTable [0x31#8, 0xFE#8, 0xFF#8] = .ok (.ldSpD16 0xFFFE#16, []) ∧
  decode fixtureTable [0x3E#8, 0x05#8, 0x3C#8] = .ok (.ldAD8 0x05#8, [0x3C#8]) ∧
  decode fixtureTable [0xEA#8, 0x00#8, 0xC0#8] = .ok (.ldA16A 0xC000#16, []) ∧
  decode fixtureTable [0xC3#8, 0x50#8, 0x01#8] = .ok (.jpA16 0x0150#16, []) ∧
  decode fixtureTable [0x18#8, 0xFE#8] = .ok (.jrE8 0xFE#8, []) ∧
  decode fixtureTable [0xD9#8] = .ok (.reti, []) ∧
  decode fixtureTable [0xDD#8] = .ok (.ill 0xDD#8, []) ∧
  decode { rows := [(0x3E#8, ⟨2, 8, .external 1, true, ""⟩)], other := ⟨3, 1, .external 0, true, ""⟩ } [0x3E#8, 0xFF#8] =
    .ok (.opL2 0x3E#8 0xFF#8, []) ∧
  decodeInterrupt defaultVectors 0b00011#8 = some .int0 ∧
  decodeInterrupt defaultVectors 0b10100#8 = some .int2

/-- 60 R119, R121-R125: which dispatch is selected, for every pair of register values: source k exactly when its own bit is
requested and enabled and no lower bit is; none exactly when no significant bit is both. -/
def Obligations.PrioritySelection : Prop :=
  ∀ (v : Vectors) (rf em : Byte),
    let both := fun k => rf.getLsbD k && em.getLsbD k
    let p := pendingEnabled rf em
    (decodeInterrupt v p = some .int0 ↔ both 0 = true) ∧
    (decodeInterrupt v p = some .int1 ↔ both 0 = false ∧ both 1 = true) ∧
    (decodeInterrupt v p = some .int2 ↔ both 0 = false ∧ both 1 = false ∧ both 2 = true) ∧
    (decodeInterrupt v p = some .int3 ↔ both 0 = false ∧ both 1 = false ∧ both 2 = false ∧ both 3 = true) ∧
    (decodeInterrupt v p = some .int4 ↔
      both 0 = false ∧ both 1 = false ∧ both 2 = false ∧ both 3 = false ∧ both 4 = true) ∧
    (decodeInterrupt v p = none ↔ p = 0#8)

/-- 30 R55-R57: the value of each operand form. -/
def Obligations.OperandValues : Prop :=
  operandL1 = 0x0000#16 ∧ (∀ b : Byte, (operandL2 b).toNat = b.toNat) ∧
  (∀ lo hi : Byte, (operandL3 lo hi).toNat = hi.toNat * 256 + lo.toNat)

/-! ### The format classes and the effect contract -/

/-- 40 R75-R77: a format class runs its descriptor's effect once, with its operand, then adds its own length to the `pc` the
effect left if the flag is true, then clears the count; nothing else. Two points are choices: that the addition is to the `pc`
after the effect is the spec's decision D20 (log 23); that the length added is the class's 1, 2 or 3 also in a state whose table
gives the opcode another length, where R72 would add the descriptor's, is the model's (log 29). -/
def Obligations.FormatClassesComplete : Prop :=
  (∀ (s : State) (op : Byte),
    let d := s.cfg.itab.lookup op
    let u := runEffect (effectOf d.effect 0x0000#16) { s with ports := s.ports ++ [.effect 0x0000#16] }
    exec (.opL1 op) s =
      .next { u with pc := if d.advancesProgramCounter then u.pc + 1 else u.pc, elapsedCycles := 0 }) ∧
  (∀ (s : State) (op imm8 : Byte),
    let d := s.cfg.itab.lookup op
    let u := runEffect (effectOf d.effect (operandL2 imm8)) { s with ports := s.ports ++ [.effect (operandL2 imm8)] }
    exec (.opL2 op imm8) s =
      .next { u with pc := if d.advancesProgramCounter then u.pc + 2 else u.pc, elapsedCycles := 0 }) ∧
  (∀ (s : State) (op lo hi : Byte),
    let d := s.cfg.itab.lookup op
    let u := runEffect (effectOf d.effect (operandL3 lo hi)) { s with ports := s.ports ++ [.effect (operandL3 lo hi)] }
    exec (.opL3 op lo hi) s =
      .next { u with pc := if d.advancesProgramCounter then u.pc + 3 else u.pc, elapsedCycles := 0 })

/-- 41 R93, D14: what no effect can do, whatever it is: touch the count, the table or any parameter, the mapping, the inputs
or the number of registers; clear `halted`; change a byte, or a controller register, that the ports show no write to. -/
def Obligations.EffectsKeepWhatTheyMayNotTouch : Prop :=
  ∀ (e : Effect) (s : State),
    let t := runEffect e s
    t.elapsedCycles = s.elapsedCycles ∧ t.cfg = s.cfg ∧ t.busMap = s.busMap ∧ t.inputs = s.inputs ∧
    RegFile.shape t.regs = RegFile.shape s.regs ∧ (s.halted = true → t.halted = true) ∧
    ∃ later, t.ports = s.ports ++ later ∧
      (∀ b : Word, (∀ v, PortEvent.busWrite b v ∉ later) → t.byteAt b = s.byteAt b) ∧
      ((∀ a v, PortEvent.busWrite a v ∈ later → s.kindAt a ≠ .intRequest) → t.requestedFlags = s.requestedFlags) ∧
      ((∀ a v, PortEvent.busWrite a v ∈ later → s.kindAt a ≠ .intEnable) → t.enabledMask = s.enabledMask)

/-- 41 R98: the two ways to write a conditional jump, flag false and flag true, do the same, taken or not. -/
def Obligations.ConditionalJumpFormsAgree : Prop :=
  ∀ (taken : CpuView → Bool) (length : Nat) (target operand : Word) (s : State),
    completeInstr (condJumpEffect taken length target) operand length false s =
      completeInstr (condJumpAdvancingEffect taken length target) operand length true s

/-- 41 R97, R102: a call pushes the address of the next instruction in the layout of the interrupt push, so that the same
return undoes it. -/
def Obligations.ReturnUndoesCall : Prop :=
  ∀ (length : Nat) (target operand operand' : Word) (n : Nat) (s : State), s.stackInRam = true →
    let t := completeInstr (callEffect length target) operand length false s
    let u := completeInstr (returnEffect false) operand' n false t
    t.pc = target ∧ t.sp = s.sp - 2 ∧ u.pc = s.pc + BitVec.ofNat 16 length ∧ u.sp = s.sp ∧ u.ime = s.ime ∧
      u.regs = s.regs ∧ u.mem = t.mem

/-! ### The fixture table's instructions: result, frame and completion in one equation each -/

/-- 95 section 4: `NOP` advances, `ILL` repeats; nothing else but the count and the port log changes. -/
def Obligations.NopAndIllComplete : Prop :=
  (∀ s : State,
    exec .nop s = .next { s with pc := s.pc + 1, elapsedCycles := 0, ports := s.ports ++ [.effect 0x0000#16] }) ∧
  (∀ (s : State) (op : Byte),
    exec (.ill op) s = .next { s with elapsedCycles := 0, ports := s.ports ++ [.effect 0x0000#16] })

/-- 95 section 4: `INC A` and `LD A,d8` write `x[A]` and no other register, wrap modulo 256, and advance. -/
def Obligations.RegisterInstructionsComplete : Prop :=
  (∀ s : State, ∃ r, exec .incA s =
      .next { s with regs := r, pc := s.pc + 1, elapsedCycles := 0, ports := s.ports ++ [.effect 0x0000#16] } ∧
    (s.hasA = true → RegFile.get8 r regA = s.regAValue + 1) ∧ r.r8.length = s.regs.r8.length ∧
    (∀ j, j ≠ regA → RegFile.get8 r j = RegFile.get8 s.regs j) ∧ r.r16 = s.regs.r16) ∧
  (∀ (s : State) (d8 : Byte), ∃ r, exec (.ldAD8 d8) s =
      .next { s with regs := r, pc := s.pc + 2, elapsedCycles := 0, ports := s.ports ++ [.effect (operandL2 d8)] } ∧
    (s.hasA = true → RegFile.get8 r regA = d8) ∧ r.r8.length = s.regs.r8.length ∧
    (∀ j, j ≠ regA → RegFile.get8 r j = RegFile.get8 s.regs j) ∧ r.r16 = s.regs.r16)

/-- 95 section 4: `LD SP,d16`, `JP a16` (flag false) and `JR e8` (flag true, displacement from the next instruction, 41
R98). -/
def Obligations.PointerInstructionsComplete : Prop :=
  (∀ (s : State) (d16 : Word), exec (.ldSpD16 d16) s =
    .next { s with sp := d16, pc := s.pc + 3, elapsedCycles := 0, ports := s.ports ++ [.effect d16] }) ∧
  (∀ (s : State) (a16 : Word), exec (.jpA16 a16) s =
    .next { s with pc := a16, elapsedCycles := 0, ports := s.ports ++ [.effect a16] }) ∧
  (∀ (s : State) (e8 : Byte), exec (.jrE8 e8) s =
    .next { s with
      pc := s.pc + 2 + e8.signExtend 16, elapsedCycles := 0, ports := s.ports ++ [.effect (operandL2 e8)] })

/-- 41 R100, R101, 95 section 4: `EI`, `DI` and `HALT` set their latch and advance. -/
def Obligations.LatchInstructionsComplete : Prop :=
  ∀ s : State,
    exec .ei s =
      .next { s with ime := true, pc := s.pc + 1, elapsedCycles := 0, ports := s.ports ++ [.effect 0x0000#16] } ∧
    exec .di s =
      .next { s with ime := false, pc := s.pc + 1, elapsedCycles := 0, ports := s.ports ++ [.effect 0x0000#16] } ∧
    exec .halt s =
      .next { s with halted := true, pc := s.pc + 1, elapsedCycles := 0, ports := s.ports ++ [.effect 0x0000#16] }

/-- 95 section 4: `LD (a16),A` for every kind of address: one Bus write of `x[A]`, always accepted (20 R31). RAM keeps the byte
and read-only memory discards it (70 R162, log 7). That a device's write stores nothing and has no effect of its own (log 8),
and that a mapped controller register takes the byte (log 9), are the model's choices: R31 says only that a write is accepted,
41 R104 only that a register may be mapped. Every other byte and every register stays. -/
def Obligations.StoreACompletes : Prop :=
  ∀ (s : State) (a16 : Word), ∃ t, exec (.ldA16A a16) s = .next t ∧
    t = { s with
      pc := s.pc + 3, elapsedCycles := 0, mem := t.mem, requestedFlags := t.requestedFlags,
      enabledMask := t.enabledMask, ports := s.ports ++ [.effect a16, .busWrite a16 s.regAValue] } ∧
    t.byteAt a16 = (if s.ramAt a16 then s.regAValue else s.byteAt a16) ∧
    (∀ b, b ≠ a16 → t.byteAt b = s.byteAt b) ∧
    t.requestedFlags = (if s.kindAt a16 = .intRequest then s.regAValue else s.requestedFlags) ∧
    t.enabledMask = (if s.kindAt a16 = .intEnable then s.regAValue else s.enabledMask)

/-- 95 section 4, 20 R31: `LD A,(a16)` puts what the Bus answers into `x[A]`: the byte held by plain memory, or whatever a device
answers, a free value, so that the statement holds for each (log 8). That a mapped controller register answers its value is the
model's choice (log 9). -/
def Obligations.LoadACompletes : Prop :=
  ∀ (s : State) (a16 : Word), ∃ r n, exec (.ldAA16 a16) s =
      .next { s with
        regs := r, pc := s.pc + 3, elapsedCycles := 0, fresh := n,
        ports := s.ports ++ [.effect a16, .busRead a16 (s.busValue a16)] } ∧
    (s.hasA = true → RegFile.get8 r regA = s.busValue a16) ∧ r.r8.length = s.regs.r8.length ∧
    (∀ j, j ≠ regA → RegFile.get8 r j = RegFile.get8 s.regs j) ∧ r.r16 = s.regs.r16 ∧
    (s.plainAt a16 = true → s.busValue a16 = s.byteAt a16 ∧ n = s.fresh)

/-- 41 R102, 95 section 4: `RETI` from any stack: `pc` from the two answers of the Bus, low byte first, `sp` up by 2, `ime`
set; memory, the controller and the registers stay. On plain memory the two answers are the bytes held there. -/
def Obligations.RetiCompletes : Prop :=
  ∀ s : State, ∃ lo hi n, exec .reti s =
      .next { s with
        pc := concat hi lo, sp := s.sp + 2, ime := true, elapsedCycles := 0, fresh := n,
        ports := s.ports ++ [.effect 0x0000#16, .busRead s.sp lo, .busRead (s.sp + 1) hi] } ∧
    (s.plainAt s.sp = true → lo = s.byteAt s.sp) ∧ (s.plainAt (s.sp + 1) = true → hi = s.byteAt (s.sp + 1)) ∧
    (s.plainAt s.sp = true → s.plainAt (s.sp + 1) = true → n = s.fresh)

/-- 40 R75-R77, 30 R59: where the bound table binds an opcode as FT does, the fixture instruction and the format class of
the same bytes do the same in every state. -/
def Obligations.FixtureInstructionsAreTheirClass : Prop :=
  ∀ (i : Instr) (bs : List Byte) (s : State), i.wellFormed s.cfg.itab = true → encode i = some bs →
    exec i s = exec (classOf i) s

/-! ### The dispatches -/

/-- 60 R132, for each of INT0 to INT4: the complete list of what a dispatch changes. The clauses on memory and the
controller registers are for a stack in RAM, where the push reaches neither. -/
def Obligations.DispatchesComplete : Prop :=
  ∀ (k : IrqSource) (s : State), s.stackInRam = true →
    ∃ t, exec (intOf k) s = .next t ∧
      t = { s with
        pc := s.cfg.vec.get k, sp := s.sp - 2, ime := false, halted := false, mem := t.mem,
        requestedFlags := match s.cfg.ackPolicy with
          | .clearAll => 0x00#8
          | .clearServiced => s.requestedFlags &&& ~~~k.mask,
        ports := s.ports ++ [.busWrite (s.sp - 1) (highByte s.pc), .busWrite (s.sp - 2) (lowByte s.pc),
          .clearIF (match s.cfg.ackPolicy with | .clearAll => 0xFF#8 | .clearServiced => k.mask)] } ∧
      t.byteAt (s.sp - 1) = highByte s.pc ∧ t.byteAt (s.sp - 2) = lowByte s.pc ∧
      (∀ b, b ≠ s.sp - 1 → b ≠ s.sp - 2 → t.byteAt b = s.byteAt b)

/-- 60 R116-R120, 70 R162: a dispatch on any stack, mixed ones too: the whole next state. Each pushed byte lands where its
address is RAM, and no other byte changes. Which kinds of address there are, and that a controller register mapped at a pushed
address takes the byte, is the model's (log 7, 8, 9). -/
def Obligations.DispatchesCompleteOnAnyStack : Prop :=
  ∀ (k : IrqSource) (s : State), ∃ t, exec (intOf k) s = .next t ∧
    t = { s with
      pc := s.cfg.vec.get k, sp := s.sp - 2, ime := false, halted := false, mem := t.mem
      enabledMask := s.pushedOnto .intEnable s.enabledMask
      requestedFlags := match s.cfg.ackPolicy with
        | .clearAll => 0x00#8
        | .clearServiced => s.pushedOnto .intRequest s.requestedFlags &&& ~~~k.mask
      ports := s.ports ++ [.busWrite (s.sp - 1) (highByte s.pc), .busWrite (s.sp - 2) (lowByte s.pc),
        .clearIF (match s.cfg.ackPolicy with | .clearAll => 0xFF#8 | .clearServiced => k.mask)] } ∧
    (s.ramAt (s.sp - 1) = true → t.byteAt (s.sp - 1) = highByte s.pc) ∧
    (s.ramAt (s.sp - 2) = true → t.byteAt (s.sp - 2) = lowByte s.pc) ∧
    (∀ b, (b ≠ s.sp - 1 ∨ s.ramAt b = false) → (b ≠ s.sp - 2 ∨ s.ramAt b = false) → t.byteAt b = s.byteAt b)

/-- 10 R14: the push wraps at both ends of the address space. -/
def Obligations.PushWraps : Prop :=
  ∀ (k : IrqSource) (s : State), s.stackInRam = true →
    ∃ t, exec (intOf k) s = .next t ∧
      (s.sp = 0x0000#16 → t.sp = 0xFFFE#16 ∧ t.byteAt 0xFFFF#16 = highByte s.pc ∧ t.byteAt 0xFFFE#16 = lowByte s.pc) ∧
      (s.sp = 0x0001#16 → t.sp = 0xFFFF#16 ∧ t.byteAt 0x0000#16 = highByte s.pc ∧ t.byteAt 0xFFFF#16 = lowByte s.pc)

/-- 60 R133, 41 R102: a return from interrupt undoes a dispatch: `pc` and `sp` are back, `ime` is set, the registers were
never touched. -/
def Obligations.RetiUndoesDispatch : Prop :=
  ∀ (k : IrqSource) (s t : State), s.stackInRam = true → exec (intOf k) s = .next t →
    ∃ u, exec .reti t = .next u ∧ u.pc = s.pc ∧ u.sp = s.sp ∧ u.ime = true ∧ u.regs = s.regs ∧ u.mem = t.mem

/-- 60 R120, R127, 70 R158: `clear_all` clears every bit of `requestedFlags`, so that every other request is lost;
`clear_serviced` clears bit k, and every other bit keeps its value where the push does not itself write the register: on a stack
in RAM, in read-only memory, on a device or on the enable mask. -/
def Obligations.AcknowledgePolicies : Prop :=
  ∀ (k : IrqSource) (s t : State), exec (intOf k) s = .next t →
    (s.cfg.ackPolicy = .clearAll → t.requestedFlags = 0x00#8) ∧
    (s.cfg.ackPolicy = .clearServiced →
      t.requestedFlags.getLsbD k.bit = false ∧
      (s.pushSpares .intRequest = true →
        ∀ n, n ≠ k.bit → t.requestedFlags.getLsbD n = s.requestedFlags.getLsbD n))

/-! ### `handleInterrupts` -/

/-- 60 R114: with `ime` 0 the call changes nothing and uses no port. -/
def Obligations.MasterGate : Prop :=
  ∀ s : State, s.ime = false → handleInterrupts s = .next s

/-- 60 R115, R126: the guard of step 2, in both of its forms. A call that returns there has read the two registers and changed
nothing. Two points are the spec's own decisions: that each register is sampled once, `requestedFlags` first, and the samples
serve step 6 as well, is D8 (log 23); that the guard is on the conjunction, with the literal reading as the other value of the
parameter, is D3 (log 11). -/
def Obligations.GuardOfStepTwo : Prop :=
  ∀ s : State, s.ime = true →
    (s.cfg.irqGuard = .masked → s.requestedFlags &&& s.enabledMask &&& 0x1F#8 = 0#8 →
      handleInterrupts s = .next s.sampled) ∧
    (s.cfg.irqGuard = .masked → s.requestedFlags &&& s.enabledMask &&& 0x1F#8 ≠ 0#8 →
      handleInterrupts s = dispatch s.requestedFlags s.enabledMask s.sampled) ∧
    (s.cfg.irqGuard = .eachNonzero → s.requestedFlags = 0#8 ∨ s.enabledMask = 0#8 →
      handleInterrupts s = .next s.sampled) ∧
    (s.cfg.irqGuard = .eachNonzero → s.requestedFlags ≠ 0#8 → s.enabledMask ≠ 0#8 →
      handleInterrupts s = dispatch s.requestedFlags s.enabledMask s.sampled)

/-- 60 R119, R112: with `ime` 1 the source dispatched is the least k both requested and enabled, under either guard. That it is
found in the samples of step 2, `requestedFlags` read first, is the spec's own decision D8 (log 23); that there are two guards
is D3 (log 11). -/
def Obligations.LeastPendingSourceIsDispatched : Prop :=
  ∀ (s : State) (k : IrqSource), s.ime = true →
    (s.requestedFlags.getLsbD k.bit && s.enabledMask.getLsbD k.bit) = true →
    (∀ j : IrqSource, j.bit < k.bit → (s.requestedFlags.getLsbD j.bit && s.enabledMask.getLsbD j.bit) = false) →
    handleInterrupts s = exec (intOf k) s.sampled ∧
      ∃ t, handleInterrupts s = .next t ∧ t.pc = s.cfg.vec.get k

/-- 60 R126: the literal guard lets a call through without a winner: `pc` is pushed and kept, `sp` goes down, `ime` and
`halted` are cleared, and the requests are acknowledged, all of them or none. -/
def Obligations.SpuriousDispatchKeepsPc : Prop :=
  ∀ s : State, s.ime = true → s.cfg.irqGuard = .eachNonzero → s.requestedFlags ≠ 0#8 → s.enabledMask ≠ 0#8 →
    s.requestedFlags &&& s.enabledMask &&& 0x1F#8 = 0#8 → s.stackInRam = true →
    ∃ t, handleInterrupts s = .next t ∧ t.pc = s.pc ∧ t.sp = s.sp - 2 ∧ t.ime = false ∧ t.halted = false ∧
      t.byteAt (s.sp - 1) = highByte s.pc ∧ t.byteAt (s.sp - 2) = lowByte s.pc ∧ t.regs = s.regs ∧
      t.requestedFlags = (match s.cfg.ackPolicy with
        | .clearAll => 0x00#8
        | .clearServiced => s.requestedFlags) ∧
      t.elapsedCycles = s.elapsedCycles ∧ t.enabledMask = s.enabledMask

/-- 20 R42, 60 R120, R126: the accesses of a call, in order: none, the two controller reads, or those, the two writes and the
clear. The clear is that of the policy: all bits; the winner's bit; nothing where no source won. The order of the two reads is
the spec's decision D8 (log 23). -/
def Obligations.HandleInterruptsPortOrder : Prop :=
  ∀ s : State, ∃ t, handleInterrupts s = .next t ∧
    (s.ime = false → t.ports = s.ports) ∧
    (s.ime = true → guardPasses s.cfg.irqGuard s.requestedFlags s.enabledMask = false →
      t.ports = s.ports ++ [.readIF s.requestedFlags, .readIE s.enabledMask]) ∧
    (s.ime = true → guardPasses s.cfg.irqGuard s.requestedFlags s.enabledMask = true →
      t.ports = s.ports ++ [.readIF s.requestedFlags, .readIE s.enabledMask,
          .busWrite (s.sp - 1) (highByte s.pc), .busWrite (s.sp - 2) (lowByte s.pc)] ++
        match s.cfg.ackPolicy, s.winner with
        | .clearAll, _ => [.clearIF 0xFF#8]
        | .clearServiced, some k => [.clearIF k.mask]
        | .clearServiced, none => [])

/-- 60 R130, 10 R24: `handleInterrupts` neither reads nor writes `elapsedCycles`: whatever the count is, the call does the
same and leaves it. -/
def Obligations.CountIsInvisibleToHandleInterrupts : Prop :=
  ∀ (s : State) (n : Nat), ∃ t, handleInterrupts s = .next t ∧ t.elapsedCycles = s.elapsedCycles ∧
    handleInterrupts { s with elapsedCycles := n } = .next { t with elapsedCycles := n }

/-- 10 R17, R18, R19: `handleInterrupts` touches no register of the register file, never writes `enabledMask` and never sets a
request bit, each where the push does not itself write that register through the Bus: on a stack in RAM, in read-only memory or
on a device. -/
def Obligations.HandleInterruptsFrame : Prop :=
  ∀ s : State, ∃ t, handleInterrupts s = .next t ∧ t.regs = s.regs ∧ t.cfg = s.cfg ∧ t.busMap = s.busMap ∧
    t.inputs = s.inputs ∧ t.fresh = s.fresh ∧
    (s.pushSpares .intEnable = true → t.enabledMask = s.enabledMask) ∧
    (s.pushSpares .intRequest = true → t.requestedFlags &&& ~~~s.requestedFlags = 0#8) ∧
    (∀ b, b ≠ s.sp - 1 → b ≠ s.sp - 2 → t.byteAt b = s.byteAt b)

/-! ### `cycle` and the tick -/

/-- 40 R79: an in-flight call reads the opcode and counts; nothing else. (A device at `pc` also uses up one of the model's
free values, log 8.) -/
def Obligations.InFlightTick : Prop :=
  ∀ s : State, s.gated = false →
    s.elapsedCycles + 1 < (s.cfg.itab.lookup (s.busValue s.pc)).duration →
    cycle s = .next { s with
      elapsedCycles := s.elapsedCycles + 1
      fresh := if s.kindAt s.pc = .device then s.fresh + 1 else s.fresh
      ports := s.ports ++ [.busRead s.pc (s.busValue s.pc), .lookup (s.busValue s.pc)] }

/-- 40 R66-R73, 20 R41: a completion call, from the count having reached the duration (or gone past it, R80), on plain
memory: opcode, operand bytes in ascending order, one effect with the operand they form, `pc`, count. It holds for every
opcode of every table within the contract, FT's named ones included. -/
def Obligations.CompletionTick : Prop :=
  ∀ s : State, s.gated = false → s.tableOk = true →
    let d := s.descriptorAt
    s.plainFetch d.length = true → d.duration ≤ s.elapsedCycles + 1 →
    let u := runEffect (effectOf d.effect (s.operandAt d.length))
      { s with
        elapsedCycles := s.elapsedCycles + 1
        ports := s.ports ++ s.opcodePorts ++ s.operandPorts d.length ++ [.effect (s.operandAt d.length)] }
    cycle s = .next { u with
      pc := if d.advancesProgramCounter then u.pc + BitVec.ofNat 16 d.length else u.pc, elapsedCycles := 0 }

/-- 40 R66-R73, 20 R31, R41: a completion call on any Bus: opcode and operand bytes may be answered by a device or by a mapped
controller register. The operand is formed from the answers in the order of the reads; a device's answer is a free value, a
new one for each read (log 8), so the statement holds for every answer. -/
def Obligations.CompletionTickOnAnyBus : Prop :=
  ∀ s : State, s.gated = false → s.tableOk = true →
    let d := s.cfg.itab.lookup s.opcodeAnswer
    d.duration ≤ s.elapsedCycles + 1 →
    let u := runEffect (effectOf d.effect (s.operandAnswer d.length))
      { s.answered d.length with
        ports := (s.answered d.length).ports ++ [.effect (s.operandAnswer d.length)] }
    cycle s = .next { u with
      pc := if d.advancesProgramCounter then u.pc + BitVec.ofNat 16 d.length else u.pc, elapsedCycles := 0 }

/-- 40 R81: with the gate a halted core does nothing on `cycle`; without it `halted` makes no difference to what an
in-flight call fetches and counts. -/
def Obligations.HaltGate : Prop :=
  (∀ s : State, s.halted = true → s.cfg.haltGatesCycle = true → cycle s = .next s) ∧
  (∀ s : State, s.cfg.haltGatesCycle = false →
    s.elapsedCycles + 1 < (s.cfg.itab.lookup (s.busValue s.pc)).duration →
    ∃ t, cycle s = .next t ∧ t.elapsedCycles = s.elapsedCycles + 1 ∧ t.halted = s.halted ∧
      cycle { s with halted := !s.halted } = .next { t with halted := !s.halted })

/-- 10 R13: at the top of the address space the operand addresses and the advance of `pc` wrap modulo 2^16. -/
def Obligations.FetchWraps : Prop :=
  ∀ s : State, s.pc = 0xFFFF#16 → s.gated = false → s.tableOk = true → s.plainFetch 3 = true →
    s.descriptorAt.length = 3 → s.descriptorAt.duration ≤ s.elapsedCycles + 1 →
    s.descriptorAt.advancesProgramCounter = true → s.descriptorAt.effect = .nothing →
    let operand := concat (s.byteAt 0x0001#16) (s.byteAt 0x0000#16)
    cycle s = .next { s with
      pc := 0x0002#16, elapsedCycles := 0
      ports := s.ports ++ [.busRead 0xFFFF#16 (s.byteAt 0xFFFF#16), .lookup (s.byteAt 0xFFFF#16),
        .busRead 0x0000#16 (s.byteAt 0x0000#16), .busRead 0x0001#16 (s.byteAt 0x0001#16), .effect operand] }

/-- When the bytes at `pc` decode to an instruction and the count has reached its duration, the step runs exactly it, on the
state in which the tick is counted and the bytes are read, then calls `handleInterrupts` (40 R65, R70). -/
def Obligations.StepRunsTheDecodedInstruction : Prop :=
  ∀ (s : State) (i : Instr) (rest : List Byte), s.inputs = [] → s.tableOk = true → s.gated = false →
    s.plainFetch 3 = true →
    decode s.cfg.itab [s.byteAt s.pc, s.byteAt (s.pc + 1), s.byteAt (s.pc + 2)] = .ok (i, rest) →
    i.wellFormed s.cfg.itab = true → s.descriptorAt.duration ≤ s.elapsedCycles + 1 →
    step s = andThen (exec i (State.fetched { s with ports := [] } s.descriptorAt.length)) handleInterrupts

/-- The same on any Bus: the bytes decoded are those the Bus answers, whatever is mapped at `pc` and after it (20 R31). Bytes
beyond the instruction's length are not read, and what the Bus would answer there makes no difference. -/
def Obligations.StepRunsWhatTheBusAnswers : Prop :=
  ∀ (s : State) (i : Instr) (rest : List Byte), s.inputs = [] → s.tableOk = true → s.gated = false →
    decode s.cfg.itab [s.opcodeAnswer, s.lowAnswer, s.highAnswer] = .ok (i, rest) →
    i.wellFormed s.cfg.itab = true → (s.cfg.itab.lookup s.opcodeAnswer).duration ≤ s.elapsedCycles + 1 →
    step s = andThen (exec i (State.answered { s with ports := [] } (s.cfg.itab.lookup s.opcodeAnswer).length))
      handleInterrupts

/-- 40 R65, 20 R48: a clock period is `cycle`, then `handleInterrupts`, with the environment before, between and after; for
a table within the contract both answer. -/
def Obligations.TickIsCycleThenHandleInterrupts : Prop :=
  ∀ (s : State) (before between after : List EnvMove) (rest : List Input), s.tableOk = true →
    s.inputs = .clock before between after :: rest →
    ∃ c d, cycle (State.environment { s with inputs := rest, ports := [] } before) = .next c ∧
      handleInterrupts (c.environment between) = .next d ∧ step s = .next (d.environment after)

/-- The same of a step with no input pending, which is a clock period with a silent environment by the model's choice (log 12):
`cycle`, then `handleInterrupts`, and nothing else. -/
def Obligations.SilentTickIsCycleThenHandleInterrupts : Prop :=
  ∀ s : State, s.tableOk = true → s.inputs = [] →
    ∃ c d, cycle { s with ports := [] } = .next c ∧ handleInterrupts c = .next d ∧ step s = .next d

/-- 40 R78, R166: the timing property. From a count of zero, with a silent environment and no dispatch, the first `d - 1`
ticks change the count (and the port log) only, and the `d`-th runs the effect once with the operand in memory, advances
`pc`, clears the count and calls `handleInterrupts`. -/
def Obligations.TimingProperty : Prop :=
  ∀ s : State, s.inputs = [] → s.elapsedCycles = 0 → s.tableOk = true → s.gated = false → s.noDispatch = true →
    let d := s.descriptorAt
    s.plainFetch d.length = true →
    (∀ n, 0 < n → n < d.duration →
      ∃ ports, core.run n s = .next { s with elapsedCycles := n, ports := ports } ∧
        ∀ operand, PortEvent.effect operand ∉ ports) ∧
    (let u := runEffect (effectOf d.effect (s.operandAt d.length))
      { s with
        elapsedCycles := d.duration
        ports := s.opcodePorts ++ s.operandPorts d.length ++ [.effect (s.operandAt d.length)] }
     core.run d.duration s = handleInterrupts { u with
      pc := if d.advancesProgramCounter then u.pc + BitVec.ofNat 16 d.length else u.pc, elapsedCycles := 0 })

/-- 60 R130, 40 R80: a dispatch on a tick on which an instruction is in flight: the address pushed is that instruction's
own, its effect does not fire, and the count goes on. -/
def Obligations.DispatchAbandonsInstructionInFlight : Prop :=
  ∀ (s : State) (k : IrqSource), s.inputs = [] → s.tableOk = true → s.gated = false → s.ime = true →
    s.stackInRam = true → s.elapsedCycles + 1 < (s.cfg.itab.lookup (s.busValue s.pc)).duration →
    (s.requestedFlags.getLsbD k.bit && s.enabledMask.getLsbD k.bit) = true →
    (∀ j : IrqSource, j.bit < k.bit → (s.requestedFlags.getLsbD j.bit && s.enabledMask.getLsbD j.bit) = false) →
    ∃ t, step s = .next t ∧ t.pc = s.cfg.vec.get k ∧ t.elapsedCycles = s.elapsedCycles + 1 ∧ t.sp = s.sp - 2 ∧
      t.byteAt (s.sp - 1) = highByte s.pc ∧ t.byteAt (s.sp - 2) = lowByte s.pc ∧ t.regs = s.regs ∧
      (∀ operand, PortEvent.effect operand ∉ t.ports)

/-- 60 R129, 70 R159: enabling takes effect on the same tick: the `EI` that completes with a source pending is followed by
that source's dispatch, and the address pushed is that of the next instruction. -/
def Obligations.EnableTakesEffectAtOnce : Prop :=
  ∀ (s : State) (k : IrqSource), s.inputs = [] → s.tableOk = true → s.gated = false → s.stackInRam = true →
    s.plainAt s.pc = true → s.byteAt s.pc = 0xFB#8 → s.cfg.itab.bindsFixture 0xFB#8 = true → 4 ≤ s.elapsedCycles + 1 →
    (s.requestedFlags.getLsbD k.bit && s.enabledMask.getLsbD k.bit) = true →
    (∀ j : IrqSource, j.bit < k.bit → (s.requestedFlags.getLsbD j.bit && s.enabledMask.getLsbD j.bit) = false) →
    ∃ t, step s = .next t ∧ t.pc = s.cfg.vec.get k ∧ t.ime = false ∧ t.byteAt (s.sp - 1) = highByte (s.pc + 1) ∧
      t.byteAt (s.sp - 2) = lowByte (s.pc + 1)

/-! ### The Bus -/

/-- 20 R40 (2): a read of RAM answers the byte last written there. A write changes no other byte, and no byte of memory at all
where the address is not RAM: that read-only memory discards it is 70 R162 (log 7); that a device's write has no effect of its
own and that a mapped controller register takes it instead of memory are the model's choices (log 8, log 9). -/
def Obligations.BusReadAfterWrite : Prop :=
  ∀ (s : State) (a : Word) (v : Byte),
    (s.ramAt a = true → ((s.busWrite a v).busRead a).1 = v) ∧
    (∀ b, b ≠ a → (s.busWrite a v).byteAt b = s.byteAt b) ∧
    (s.ramAt a = false → (s.busWrite a v).mem = s.mem)

/-- 20 R45, 70 R160: fetch is coherent: after a store of `v` to the address in `pc`, the very next `cycle` call looks up
`v`. -/
def Obligations.FetchSeesStores : Prop :=
  ∀ (s : State) (v : Byte), s.ramAt s.pc = true → s.gated = false → s.tableOk = true →
    ∃ t later, cycle (s.busWrite s.pc v) = .next t ∧
      t.ports = s.ports ++ [.busWrite s.pc v, .busRead s.pc v, .lookup v] ++ later

/-- 20 R47: whatever the environment does, it changes the two controller registers and what the Bus returns, and nothing
else: it cannot write the CPU state. -/
def Obligations.EnvironmentCannotWriteCpuState : Prop :=
  ∀ (moves : List EnvMove) (s : State),
    let t := s.environment moves
    t = { s with
      requestedFlags := t.requestedFlags, enabledMask := t.enabledMask, mem := t.mem, busMap := t.busMap }

/-! ### The whole machine -/

/-- 00 R7, 40 R84: for a table within the contract every step answers a next state. -/
def Obligations.EveryStepAnswers : Prop :=
  ∀ s : State, s.tableOk = true → s.safe

/-- 41 R106: a clock period of a table outside the contract is refused, and by that name. -/
def Obligations.BadTableIsRefused : Prop :=
  ∀ s : State, s.tableOk = false → (∀ rest, s.inputs ≠ .reset :: rest) → step s = .refused .tableOutsideContract

/-- 41 R106, R91, R92: the check passes exactly the tables whose 256 descriptors are within the contract. -/
def Obligations.TableCheckIsExact : Prop :=
  ∀ (t : Table) (dmax : Nat), t.ok dmax = true ↔
    ∀ op : Byte, 1 ≤ (t.lookup op).length ∧ (t.lookup op).length ≤ 3 ∧ 1 ≤ (t.lookup op).duration ∧
      (t.lookup op).duration ≤ dmax

/-- INVARIANT. 10 R26: between two steps `elapsedCycles <= DMAX - 1`; no step breaks it, from any state. -/
def Obligations.CountStaysBounded : Prop :=
  ∀ s t : State, s.countBounded = true → step s = .next t → t.countBounded = true

/-- INVARIANT. Memory stays in canonical form and the table within the contract, through instructions, dispatches and the
environment's moves (10 R21, 20 R40). -/
def Obligations.StepKeepsWellFormedness : Prop :=
  ∀ s t : State, s.memWf = true → s.tableOk = true → step s = .next t → t.memWf = true ∧ t.tableOk = true

/-- The invariants hold of the reset state. -/
def Obligations.ResetMeetsInvariants : Prop :=
  State.reset.memWf = true ∧ State.reset.tableOk = true ∧ State.reset.countBounded = true

/-- 10 R21, 70 R153: no operation of the block, no effect, no move of the environment and no reset changes the table or any
other parameter. -/
def Obligations.ParametersNeverChange : Prop :=
  ∀ s t : State, step s = .next t → t.cfg = s.cfg

/-- 10 R11: the set of registers is fixed. -/
def Obligations.RegisterSetIsFixed : Prop :=
  ∀ s t : State, step s = .next t → RegFile.shape t.regs = RegFile.shape s.regs

/-- 60 R143: `halted` is cleared only by a dispatch: in a step that is not the reset input and that ends with `halted` 0
after it was 1, some `handleInterrupts` call passed its gate and its guard. -/
def Obligations.HaltedIsClearedOnlyByDispatch : Prop :=
  (∀ s t : State, cycle s = .next t → s.halted = true → t.halted = true) ∧
  (∀ s t : State, handleInterrupts s = .next t → s.halted = true → t.halted = false →
    s.ime = true ∧ guardPasses s.cfg.irqGuard s.requestedFlags s.enabledMask = true) ∧
  (∀ s t : State, handleInterrupts s = .next t → s.ime = true →
    guardPasses s.cfg.irqGuard s.requestedFlags s.enabledMask = true → t.halted = false)

/-- INVARIANT. 60 R143, 40 R81: with the gate, a halted core with `ime` 0 hangs for good, whatever the environment does: it
stays so, every step answers, and no field of the CPU state ever changes. -/
def Obligations.GatedHaltIsAHang : Prop :=
  ∀ s : State, s.hung = true → ∃ t, step s = .next t ∧ t.hung = true ∧ t.pc = s.pc ∧ t.sp = s.sp ∧ t.regs = s.regs ∧
    t.ime = s.ime ∧ t.halted = s.halted ∧ t.elapsedCycles = s.elapsedCycles

/-- 20 R30, R40: with a silent environment a byte of memory changes only by a Bus write that the ports show. -/
def Obligations.MemoryChangesOnlyByBusWrites : Prop :=
  ∀ s t : State, s.inputs = [] → step s = .next t → ∀ b : Word, t.byteAt b ≠ s.byteAt b →
    ∃ v, PortEvent.busWrite b v ∈ t.ports
end

