-- ==== Sys2Proof/Laws/Memory.lean ====
section
/-! SUPPORT. The laws of memory: read after write, every other byte untouched, the canonical form kept. -/

namespace Sys2Proof.Machine

theorem Memory.read_insert_same (m : List Host.Cell) (a : Nat) (v : Byte) (h : ∀ c ∈ m, c.1 ≠ a) :
    Memory.read (Memory.insert m a v) a = v := by
  induction m with
  | nil => simp [Memory.insert, Memory.read]
  | cons c rest ih =>
    obtain ⟨b, w⟩ := c
    have hb : b ≠ a := h (b, w) (by simp)
    have hr : ∀ c ∈ rest, c.1 ≠ a := fun c hc => h c (by simp [hc])
    by_cases hab : a < b
    · simp [Memory.insert, Memory.read, hab]
    · simp [Memory.insert, Memory.read, hab, hb, ih hr]

theorem Memory.read_insert_other (m : List Host.Cell) (a b : Nat) (v : Byte) (h : b ≠ a) :
    Memory.read (Memory.insert m a v) b = Memory.read m b := by
  induction m with
  | nil => simp [Memory.insert, Memory.read, Ne.symm h]
  | cons c rest ih =>
    obtain ⟨k, w⟩ := c
    by_cases hk : a < k
    · simp [Memory.insert, Memory.read, hk, Ne.symm h]
    · simp [Memory.insert, Memory.read, hk, ih]

theorem Memory.read_absent (m : List Host.Cell) (a : Nat) (h : ∀ c ∈ m, c.1 ≠ a) :
    Memory.read m a = Memory.unlisted := by
  induction m with
  | nil => rfl
  | cons c rest ih =>
    have hc : c.1 ≠ a := h c (by simp)
    simp [Memory.read, hc, ih fun d hd => h d (by simp [hd])]

theorem Memory.read_filter_other (m : List Host.Cell) (a b : Nat) (h : b ≠ a) :
    Memory.read (m.filter fun c => c.1 != a) b = Memory.read m b := by
  induction m with
  | nil => rfl
  | cons c rest ih =>
    obtain ⟨k, w⟩ := c
    by_cases hk : k = a
    · subst hk
      simp [Memory.read, ih, Ne.symm h]
    · simp [Memory.read, ih, hk]

theorem Memory.filter_absent (m : List Host.Cell) (a : Nat) : ∀ c ∈ m.filter fun c => c.1 != a, c.1 ≠ a := by
  simp

/-- A read after a write to the same address gives the value written (20 R40 (2)). -/
@[simp] theorem Memory.read_write_same (m : List Host.Cell) (a : Nat) (v : Byte) :
    Memory.read (Memory.write m a v) a = v := by
  by_cases hv : v = Memory.unlisted
  · simp [Memory.write, hv, Memory.read_absent _ a (Memory.filter_absent m a)]
  · simp only [Memory.write, hv, if_false]
    exact Memory.read_insert_same _ a v (Memory.filter_absent m a)

/-- A write leaves every other byte alone. -/
theorem Memory.read_write_other (m : List Host.Cell) (a b : Nat) (v : Byte) (h : b ≠ a) :
    Memory.read (Memory.write m a v) b = Memory.read m b := by
  by_cases hv : v = Memory.unlisted
  · simp [Memory.write, hv, Memory.read_filter_other m a b h]
  · simp only [Memory.write, hv, if_false]
    rw [Memory.read_insert_other _ a b v h, Memory.read_filter_other m a b h]

theorem Memory.mem_insert (m : List Host.Cell) (a : Nat) (v : Byte) (c : Host.Cell) :
    c ∈ Memory.insert m a v ↔ c = (a, v) ∨ c ∈ m := by
  induction m with
  | nil => simp [Memory.insert]
  | cons d rest ih =>
    obtain ⟨k, w⟩ := d
    by_cases hk : a < k
    · simp [Memory.insert, hk]
    · simp only [Memory.insert, hk, if_false, List.mem_cons, ih]
      tauto

theorem Memory.insert_rising (m : List Host.Cell) (a : Nat) (v : Byte) (hm : m.Pairwise fun c d => c.1 < d.1)
    (h : ∀ c ∈ m, c.1 ≠ a) : (Memory.insert m a v).Pairwise fun c d => c.1 < d.1 := by
  induction m with
  | nil => simp [Memory.insert]
  | cons d rest ih =>
    obtain ⟨k, w⟩ := d
    have hp := List.pairwise_cons.mp hm
    have hka : k ≠ a := h (k, w) (by simp)
    by_cases hk : a < k
    · simp only [Memory.insert, hk, if_true]
      refine List.pairwise_cons.mpr ⟨fun c hc => ?_, hm⟩
      rcases List.mem_cons.mp hc with rfl | hc
      · exact hk
      · exact lt_trans hk (hp.1 c hc)
    · simp only [Memory.insert, hk, if_false]
      refine List.pairwise_cons.mpr ⟨fun c hc => ?_, ih hp.2 fun c hc => h c (by simp [hc])⟩
      rcases (Memory.mem_insert rest a v c).mp hc with rfl | hc
      · show k < a
        omega
      · exact hp.1 c hc

/-- What the canonical form says, as a Prop. -/
theorem Memory.wf_iff (m : List Host.Cell) :
    Memory.wf m = true ↔
      (m.Pairwise fun c d => c.1 < d.1) ∧ ∀ c ∈ m, c.1 < 2 ^ 16 ∧ c.2 ≠ Memory.unlisted := by
  simp [Memory.wf]

/-- A write inside the address space keeps the canonical form. -/
theorem Memory.wf_write (m : List Host.Cell) (a : Nat) (v : Byte) (ha : a < 2 ^ 16) (h : Memory.wf m = true) :
    Memory.wf (Memory.write m a v) = true := by
  obtain ⟨hp, hc⟩ := (Memory.wf_iff m).mp h
  have hf : (m.filter fun c => c.1 != a).Pairwise fun c d => c.1 < d.1 := hp.filter _
  have hcf : ∀ c ∈ m.filter fun c => c.1 != a, c.1 < 2 ^ 16 ∧ c.2 ≠ Memory.unlisted :=
    fun c hm => hc c (List.mem_filter.mp hm).1
  by_cases hv : v = Memory.unlisted
  · simp only [Memory.write, hv, if_true]
    exact (Memory.wf_iff _).mpr ⟨hf, hcf⟩
  · simp only [Memory.write, hv, if_false]
    refine (Memory.wf_iff _).mpr ⟨Memory.insert_rising _ a v hf (Memory.filter_absent m a), fun c hm => ?_⟩
    rcases (Memory.mem_insert _ a v c).mp hm with rfl | hm
    · exact ⟨ha, hv⟩
    · exact hcf c hm

end Sys2Proof.Machine
end

