-- ==== Sys2Proof/Laws/State.lean ====
section
/-! SUPPORT. One lemma per field and update of State, each true by rfl. -/

namespace Sys2Proof.Machine

section
variable (s : State) (v : RegFile)
@[simp] theorem State.setRegs_regs : (s.setRegs v).regs = v := rfl
@[simp] theorem State.setRegs_pc : (s.setRegs v).pc = s.pc := rfl
@[simp] theorem State.setRegs_sp : (s.setRegs v).sp = s.sp := rfl
@[simp] theorem State.setRegs_ime : (s.setRegs v).ime = s.ime := rfl
@[simp] theorem State.setRegs_halted : (s.setRegs v).halted = s.halted := rfl
@[simp] theorem State.setRegs_elapsedCycles : (s.setRegs v).elapsedCycles = s.elapsedCycles := rfl
@[simp] theorem State.setRegs_requestedFlags : (s.setRegs v).requestedFlags = s.requestedFlags := rfl
@[simp] theorem State.setRegs_enabledMask : (s.setRegs v).enabledMask = s.enabledMask := rfl
@[simp] theorem State.setRegs_mem : (s.setRegs v).mem = s.mem := rfl
@[simp] theorem State.setRegs_busMap : (s.setRegs v).busMap = s.busMap := rfl
@[simp] theorem State.setRegs_cfg : (s.setRegs v).cfg = s.cfg := rfl
@[simp] theorem State.setRegs_inputs : (s.setRegs v).inputs = s.inputs := rfl
@[simp] theorem State.setRegs_ports : (s.setRegs v).ports = s.ports := rfl
@[simp] theorem State.setRegs_fresh : (s.setRegs v).fresh = s.fresh := rfl
end

section
variable (s : State) (v : Word)
@[simp] theorem State.setPc_regs : (s.setPc v).regs = s.regs := rfl
@[simp] theorem State.setPc_pc : (s.setPc v).pc = v := rfl
@[simp] theorem State.setPc_sp : (s.setPc v).sp = s.sp := rfl
@[simp] theorem State.setPc_ime : (s.setPc v).ime = s.ime := rfl
@[simp] theorem State.setPc_halted : (s.setPc v).halted = s.halted := rfl
@[simp] theorem State.setPc_elapsedCycles : (s.setPc v).elapsedCycles = s.elapsedCycles := rfl
@[simp] theorem State.setPc_requestedFlags : (s.setPc v).requestedFlags = s.requestedFlags := rfl
@[simp] theorem State.setPc_enabledMask : (s.setPc v).enabledMask = s.enabledMask := rfl
@[simp] theorem State.setPc_mem : (s.setPc v).mem = s.mem := rfl
@[simp] theorem State.setPc_busMap : (s.setPc v).busMap = s.busMap := rfl
@[simp] theorem State.setPc_cfg : (s.setPc v).cfg = s.cfg := rfl
@[simp] theorem State.setPc_inputs : (s.setPc v).inputs = s.inputs := rfl
@[simp] theorem State.setPc_ports : (s.setPc v).ports = s.ports := rfl
@[simp] theorem State.setPc_fresh : (s.setPc v).fresh = s.fresh := rfl
end

section
variable (s : State) (v : Word)
@[simp] theorem State.setSp_regs : (s.setSp v).regs = s.regs := rfl
@[simp] theorem State.setSp_pc : (s.setSp v).pc = s.pc := rfl
@[simp] theorem State.setSp_sp : (s.setSp v).sp = v := rfl
@[simp] theorem State.setSp_ime : (s.setSp v).ime = s.ime := rfl
@[simp] theorem State.setSp_halted : (s.setSp v).halted = s.halted := rfl
@[simp] theorem State.setSp_elapsedCycles : (s.setSp v).elapsedCycles = s.elapsedCycles := rfl
@[simp] theorem State.setSp_requestedFlags : (s.setSp v).requestedFlags = s.requestedFlags := rfl
@[simp] theorem State.setSp_enabledMask : (s.setSp v).enabledMask = s.enabledMask := rfl
@[simp] theorem State.setSp_mem : (s.setSp v).mem = s.mem := rfl
@[simp] theorem State.setSp_busMap : (s.setSp v).busMap = s.busMap := rfl
@[simp] theorem State.setSp_cfg : (s.setSp v).cfg = s.cfg := rfl
@[simp] theorem State.setSp_inputs : (s.setSp v).inputs = s.inputs := rfl
@[simp] theorem State.setSp_ports : (s.setSp v).ports = s.ports := rfl
@[simp] theorem State.setSp_fresh : (s.setSp v).fresh = s.fresh := rfl
end

section
variable (s : State) (v : Bool)
@[simp] theorem State.setIme_regs : (s.setIme v).regs = s.regs := rfl
@[simp] theorem State.setIme_pc : (s.setIme v).pc = s.pc := rfl
@[simp] theorem State.setIme_sp : (s.setIme v).sp = s.sp := rfl
@[simp] theorem State.setIme_ime : (s.setIme v).ime = v := rfl
@[simp] theorem State.setIme_halted : (s.setIme v).halted = s.halted := rfl
@[simp] theorem State.setIme_elapsedCycles : (s.setIme v).elapsedCycles = s.elapsedCycles := rfl
@[simp] theorem State.setIme_requestedFlags : (s.setIme v).requestedFlags = s.requestedFlags := rfl
@[simp] theorem State.setIme_enabledMask : (s.setIme v).enabledMask = s.enabledMask := rfl
@[simp] theorem State.setIme_mem : (s.setIme v).mem = s.mem := rfl
@[simp] theorem State.setIme_busMap : (s.setIme v).busMap = s.busMap := rfl
@[simp] theorem State.setIme_cfg : (s.setIme v).cfg = s.cfg := rfl
@[simp] theorem State.setIme_inputs : (s.setIme v).inputs = s.inputs := rfl
@[simp] theorem State.setIme_ports : (s.setIme v).ports = s.ports := rfl
@[simp] theorem State.setIme_fresh : (s.setIme v).fresh = s.fresh := rfl
end

section
variable (s : State) (v : Bool)
@[simp] theorem State.setHalted_regs : (s.setHalted v).regs = s.regs := rfl
@[simp] theorem State.setHalted_pc : (s.setHalted v).pc = s.pc := rfl
@[simp] theorem State.setHalted_sp : (s.setHalted v).sp = s.sp := rfl
@[simp] theorem State.setHalted_ime : (s.setHalted v).ime = s.ime := rfl
@[simp] theorem State.setHalted_halted : (s.setHalted v).halted = v := rfl
@[simp] theorem State.setHalted_elapsedCycles : (s.setHalted v).elapsedCycles = s.elapsedCycles := rfl
@[simp] theorem State.setHalted_requestedFlags : (s.setHalted v).requestedFlags = s.requestedFlags := rfl
@[simp] theorem State.setHalted_enabledMask : (s.setHalted v).enabledMask = s.enabledMask := rfl
@[simp] theorem State.setHalted_mem : (s.setHalted v).mem = s.mem := rfl
@[simp] theorem State.setHalted_busMap : (s.setHalted v).busMap = s.busMap := rfl
@[simp] theorem State.setHalted_cfg : (s.setHalted v).cfg = s.cfg := rfl
@[simp] theorem State.setHalted_inputs : (s.setHalted v).inputs = s.inputs := rfl
@[simp] theorem State.setHalted_ports : (s.setHalted v).ports = s.ports := rfl
@[simp] theorem State.setHalted_fresh : (s.setHalted v).fresh = s.fresh := rfl
end

section
variable (s : State) (v : Nat)
@[simp] theorem State.setElapsed_regs : (s.setElapsed v).regs = s.regs := rfl
@[simp] theorem State.setElapsed_pc : (s.setElapsed v).pc = s.pc := rfl
@[simp] theorem State.setElapsed_sp : (s.setElapsed v).sp = s.sp := rfl
@[simp] theorem State.setElapsed_ime : (s.setElapsed v).ime = s.ime := rfl
@[simp] theorem State.setElapsed_halted : (s.setElapsed v).halted = s.halted := rfl
@[simp] theorem State.setElapsed_elapsedCycles : (s.setElapsed v).elapsedCycles = v := rfl
@[simp] theorem State.setElapsed_requestedFlags : (s.setElapsed v).requestedFlags = s.requestedFlags := rfl
@[simp] theorem State.setElapsed_enabledMask : (s.setElapsed v).enabledMask = s.enabledMask := rfl
@[simp] theorem State.setElapsed_mem : (s.setElapsed v).mem = s.mem := rfl
@[simp] theorem State.setElapsed_busMap : (s.setElapsed v).busMap = s.busMap := rfl
@[simp] theorem State.setElapsed_cfg : (s.setElapsed v).cfg = s.cfg := rfl
@[simp] theorem State.setElapsed_inputs : (s.setElapsed v).inputs = s.inputs := rfl
@[simp] theorem State.setElapsed_ports : (s.setElapsed v).ports = s.ports := rfl
@[simp] theorem State.setElapsed_fresh : (s.setElapsed v).fresh = s.fresh := rfl
end

section
variable (s : State) (v : Byte)
@[simp] theorem State.setRequested_regs : (s.setRequested v).regs = s.regs := rfl
@[simp] theorem State.setRequested_pc : (s.setRequested v).pc = s.pc := rfl
@[simp] theorem State.setRequested_sp : (s.setRequested v).sp = s.sp := rfl
@[simp] theorem State.setRequested_ime : (s.setRequested v).ime = s.ime := rfl
@[simp] theorem State.setRequested_halted : (s.setRequested v).halted = s.halted := rfl
@[simp] theorem State.setRequested_elapsedCycles : (s.setRequested v).elapsedCycles = s.elapsedCycles := rfl
@[simp] theorem State.setRequested_requestedFlags : (s.setRequested v).requestedFlags = v := rfl
@[simp] theorem State.setRequested_enabledMask : (s.setRequested v).enabledMask = s.enabledMask := rfl
@[simp] theorem State.setRequested_mem : (s.setRequested v).mem = s.mem := rfl
@[simp] theorem State.setRequested_busMap : (s.setRequested v).busMap = s.busMap := rfl
@[simp] theorem State.setRequested_cfg : (s.setRequested v).cfg = s.cfg := rfl
@[simp] theorem State.setRequested_inputs : (s.setRequested v).inputs = s.inputs := rfl
@[simp] theorem State.setRequested_ports : (s.setRequested v).ports = s.ports := rfl
@[simp] theorem State.setRequested_fresh : (s.setRequested v).fresh = s.fresh := rfl
end

section
variable (s : State) (v : Byte)
@[simp] theorem State.setEnabled_regs : (s.setEnabled v).regs = s.regs := rfl
@[simp] theorem State.setEnabled_pc : (s.setEnabled v).pc = s.pc := rfl
@[simp] theorem State.setEnabled_sp : (s.setEnabled v).sp = s.sp := rfl
@[simp] theorem State.setEnabled_ime : (s.setEnabled v).ime = s.ime := rfl
@[simp] theorem State.setEnabled_halted : (s.setEnabled v).halted = s.halted := rfl
@[simp] theorem State.setEnabled_elapsedCycles : (s.setEnabled v).elapsedCycles = s.elapsedCycles := rfl
@[simp] theorem State.setEnabled_requestedFlags : (s.setEnabled v).requestedFlags = s.requestedFlags := rfl
@[simp] theorem State.setEnabled_enabledMask : (s.setEnabled v).enabledMask = v := rfl
@[simp] theorem State.setEnabled_mem : (s.setEnabled v).mem = s.mem := rfl
@[simp] theorem State.setEnabled_busMap : (s.setEnabled v).busMap = s.busMap := rfl
@[simp] theorem State.setEnabled_cfg : (s.setEnabled v).cfg = s.cfg := rfl
@[simp] theorem State.setEnabled_inputs : (s.setEnabled v).inputs = s.inputs := rfl
@[simp] theorem State.setEnabled_ports : (s.setEnabled v).ports = s.ports := rfl
@[simp] theorem State.setEnabled_fresh : (s.setEnabled v).fresh = s.fresh := rfl
end

section
variable (s : State) (v : List Host.Cell)
@[simp] theorem State.setMem_regs : (s.setMem v).regs = s.regs := rfl
@[simp] theorem State.setMem_pc : (s.setMem v).pc = s.pc := rfl
@[simp] theorem State.setMem_sp : (s.setMem v).sp = s.sp := rfl
@[simp] theorem State.setMem_ime : (s.setMem v).ime = s.ime := rfl
@[simp] theorem State.setMem_halted : (s.setMem v).halted = s.halted := rfl
@[simp] theorem State.setMem_elapsedCycles : (s.setMem v).elapsedCycles = s.elapsedCycles := rfl
@[simp] theorem State.setMem_requestedFlags : (s.setMem v).requestedFlags = s.requestedFlags := rfl
@[simp] theorem State.setMem_enabledMask : (s.setMem v).enabledMask = s.enabledMask := rfl
@[simp] theorem State.setMem_mem : (s.setMem v).mem = v := rfl
@[simp] theorem State.setMem_busMap : (s.setMem v).busMap = s.busMap := rfl
@[simp] theorem State.setMem_cfg : (s.setMem v).cfg = s.cfg := rfl
@[simp] theorem State.setMem_inputs : (s.setMem v).inputs = s.inputs := rfl
@[simp] theorem State.setMem_ports : (s.setMem v).ports = s.ports := rfl
@[simp] theorem State.setMem_fresh : (s.setMem v).fresh = s.fresh := rfl
end

section
variable (s : State) (v : List Region)
@[simp] theorem State.setBusMap_regs : (s.setBusMap v).regs = s.regs := rfl
@[simp] theorem State.setBusMap_pc : (s.setBusMap v).pc = s.pc := rfl
@[simp] theorem State.setBusMap_sp : (s.setBusMap v).sp = s.sp := rfl
@[simp] theorem State.setBusMap_ime : (s.setBusMap v).ime = s.ime := rfl
@[simp] theorem State.setBusMap_halted : (s.setBusMap v).halted = s.halted := rfl
@[simp] theorem State.setBusMap_elapsedCycles : (s.setBusMap v).elapsedCycles = s.elapsedCycles := rfl
@[simp] theorem State.setBusMap_requestedFlags : (s.setBusMap v).requestedFlags = s.requestedFlags := rfl
@[simp] theorem State.setBusMap_enabledMask : (s.setBusMap v).enabledMask = s.enabledMask := rfl
@[simp] theorem State.setBusMap_mem : (s.setBusMap v).mem = s.mem := rfl
@[simp] theorem State.setBusMap_busMap : (s.setBusMap v).busMap = v := rfl
@[simp] theorem State.setBusMap_cfg : (s.setBusMap v).cfg = s.cfg := rfl
@[simp] theorem State.setBusMap_inputs : (s.setBusMap v).inputs = s.inputs := rfl
@[simp] theorem State.setBusMap_ports : (s.setBusMap v).ports = s.ports := rfl
@[simp] theorem State.setBusMap_fresh : (s.setBusMap v).fresh = s.fresh := rfl
end

section
variable (s : State) (v : List Input)
@[simp] theorem State.setInputs_regs : (s.setInputs v).regs = s.regs := rfl
@[simp] theorem State.setInputs_pc : (s.setInputs v).pc = s.pc := rfl
@[simp] theorem State.setInputs_sp : (s.setInputs v).sp = s.sp := rfl
@[simp] theorem State.setInputs_ime : (s.setInputs v).ime = s.ime := rfl
@[simp] theorem State.setInputs_halted : (s.setInputs v).halted = s.halted := rfl
@[simp] theorem State.setInputs_elapsedCycles : (s.setInputs v).elapsedCycles = s.elapsedCycles := rfl
@[simp] theorem State.setInputs_requestedFlags : (s.setInputs v).requestedFlags = s.requestedFlags := rfl
@[simp] theorem State.setInputs_enabledMask : (s.setInputs v).enabledMask = s.enabledMask := rfl
@[simp] theorem State.setInputs_mem : (s.setInputs v).mem = s.mem := rfl
@[simp] theorem State.setInputs_busMap : (s.setInputs v).busMap = s.busMap := rfl
@[simp] theorem State.setInputs_cfg : (s.setInputs v).cfg = s.cfg := rfl
@[simp] theorem State.setInputs_inputs : (s.setInputs v).inputs = v := rfl
@[simp] theorem State.setInputs_ports : (s.setInputs v).ports = s.ports := rfl
@[simp] theorem State.setInputs_fresh : (s.setInputs v).fresh = s.fresh := rfl
end

section
variable (s : State) (v : List PortEvent)
@[simp] theorem State.setPorts_regs : (s.setPorts v).regs = s.regs := rfl
@[simp] theorem State.setPorts_pc : (s.setPorts v).pc = s.pc := rfl
@[simp] theorem State.setPorts_sp : (s.setPorts v).sp = s.sp := rfl
@[simp] theorem State.setPorts_ime : (s.setPorts v).ime = s.ime := rfl
@[simp] theorem State.setPorts_halted : (s.setPorts v).halted = s.halted := rfl
@[simp] theorem State.setPorts_elapsedCycles : (s.setPorts v).elapsedCycles = s.elapsedCycles := rfl
@[simp] theorem State.setPorts_requestedFlags : (s.setPorts v).requestedFlags = s.requestedFlags := rfl
@[simp] theorem State.setPorts_enabledMask : (s.setPorts v).enabledMask = s.enabledMask := rfl
@[simp] theorem State.setPorts_mem : (s.setPorts v).mem = s.mem := rfl
@[simp] theorem State.setPorts_busMap : (s.setPorts v).busMap = s.busMap := rfl
@[simp] theorem State.setPorts_cfg : (s.setPorts v).cfg = s.cfg := rfl
@[simp] theorem State.setPorts_inputs : (s.setPorts v).inputs = s.inputs := rfl
@[simp] theorem State.setPorts_ports : (s.setPorts v).ports = v := rfl
@[simp] theorem State.setPorts_fresh : (s.setPorts v).fresh = s.fresh := rfl
end

section
variable (s : State) (v : Nat)
@[simp] theorem State.setFresh_regs : (s.setFresh v).regs = s.regs := rfl
@[simp] theorem State.setFresh_pc : (s.setFresh v).pc = s.pc := rfl
@[simp] theorem State.setFresh_sp : (s.setFresh v).sp = s.sp := rfl
@[simp] theorem State.setFresh_ime : (s.setFresh v).ime = s.ime := rfl
@[simp] theorem State.setFresh_halted : (s.setFresh v).halted = s.halted := rfl
@[simp] theorem State.setFresh_elapsedCycles : (s.setFresh v).elapsedCycles = s.elapsedCycles := rfl
@[simp] theorem State.setFresh_requestedFlags : (s.setFresh v).requestedFlags = s.requestedFlags := rfl
@[simp] theorem State.setFresh_enabledMask : (s.setFresh v).enabledMask = s.enabledMask := rfl
@[simp] theorem State.setFresh_mem : (s.setFresh v).mem = s.mem := rfl
@[simp] theorem State.setFresh_busMap : (s.setFresh v).busMap = s.busMap := rfl
@[simp] theorem State.setFresh_cfg : (s.setFresh v).cfg = s.cfg := rfl
@[simp] theorem State.setFresh_inputs : (s.setFresh v).inputs = s.inputs := rfl
@[simp] theorem State.setFresh_ports : (s.setFresh v).ports = s.ports := rfl
@[simp] theorem State.setFresh_fresh : (s.setFresh v).fresh = v := rfl
end

section
variable (s : State) (e : PortEvent)
@[simp] theorem State.log_regs : (s.log e).regs = s.regs := rfl
@[simp] theorem State.log_pc : (s.log e).pc = s.pc := rfl
@[simp] theorem State.log_sp : (s.log e).sp = s.sp := rfl
@[simp] theorem State.log_ime : (s.log e).ime = s.ime := rfl
@[simp] theorem State.log_halted : (s.log e).halted = s.halted := rfl
@[simp] theorem State.log_elapsedCycles : (s.log e).elapsedCycles = s.elapsedCycles := rfl
@[simp] theorem State.log_requestedFlags : (s.log e).requestedFlags = s.requestedFlags := rfl
@[simp] theorem State.log_enabledMask : (s.log e).enabledMask = s.enabledMask := rfl
@[simp] theorem State.log_mem : (s.log e).mem = s.mem := rfl
@[simp] theorem State.log_busMap : (s.log e).busMap = s.busMap := rfl
@[simp] theorem State.log_cfg : (s.log e).cfg = s.cfg := rfl
@[simp] theorem State.log_inputs : (s.log e).inputs = s.inputs := rfl
@[simp] theorem State.log_ports : (s.log e).ports = s.ports ++ [e] := rfl
@[simp] theorem State.log_fresh : (s.log e).fresh = s.fresh := rfl
end

end Sys2Proof.Machine
end

