-- ==== Sys2Proof/Laws/Table.lean ====
section
/-! SUPPORT. What the check of the Instruction Table says, and that a table within the contract decodes everything. -/

namespace Sys2Proof

theorem Table.lookup_of_listed (t : Table) (op : Byte) (d : Descriptor) (h : t.rows.lookup op = some d) :
    t.lookup op = d := by
  simp [Table.lookup, h]

theorem Table.lookup_of_unlisted (t : Table) (op : Byte) (h : t.rows.lookup op = none) : t.lookup op = t.other := by
  simp [Table.lookup, h]

theorem Table.mem_of_lookup (rows : List (Byte × Descriptor)) (op : Byte) (d : Descriptor)
    (h : rows.lookup op = some d) : (op, d) ∈ rows := by
  induction rows with
  | nil => simp at h
  | cons r rest ih =>
    obtain ⟨k, e⟩ := r
    by_cases hk : op = k
    · subst hk
      simp at h
      simp [h]
    · have hb : (op == k) = false := by simpa using hk
      rw [List.lookup_cons, hb] at h
      exact List.mem_cons_of_mem _ (ih h)

theorem Table.listsAll_iff (t : Table) : t.listsAll = true ↔ ∀ op : Byte, (t.rows.lookup op).isSome = true := by
  constructor
  · intro h op
    have := List.all_eq_true.mp h op.toNat (List.mem_range.mpr op.isLt)
    simpa using this
  · intro h
    exact List.all_eq_true.mpr fun n _ => h _

/-- The check says exactly that all 256 descriptors are within the contract (41 R106). -/
theorem Table.ok_iff (dmax : Nat) (t : Table) : t.ok dmax = true ↔ ∀ op : Byte, (t.lookup op).ok dmax = true := by
  constructor
  · intro h op
    simp only [Table.ok, Bool.and_eq_true, Bool.or_eq_true, List.all_eq_true] at h
    cases hl : t.rows.lookup op with
    | some d => exact h.1 (op, d) (Table.mem_of_lookup _ _ _ hl)
    | none =>
      rw [Table.lookup_of_unlisted t op hl]
      rcases h.2 with ho | ha
      · exact ho
      · have := (Table.listsAll_iff t).mp ha op
        simp [hl] at this
  · intro h
    simp only [Table.ok, Bool.and_eq_true, Bool.or_eq_true, List.all_eq_true]
    refine ⟨fun r _ => h r.1, ?_⟩
    by_cases ha : t.listsAll = true
    · exact .inr ha
    · refine .inl ?_
      have hn : ∃ op : Byte, t.rows.lookup op = none := by
        by_contra hc
        push Not at hc
        exact ha ((Table.listsAll_iff t).mpr fun op => Option.isSome_iff_ne_none.mpr (hc op))
      obtain ⟨op, hop⟩ := hn
      simpa [Table.lookup_of_unlisted t op hop] using h op

theorem Descriptor.ok_iff (dmax : Nat) (d : Descriptor) :
    d.ok dmax = true ↔ 1 ≤ d.length ∧ d.length ≤ 3 ∧ 1 ≤ d.duration ∧ d.duration ≤ dmax := by
  simp [Descriptor.ok, and_assoc]

theorem Descriptor.length_cases (dmax : Nat) (d : Descriptor) (h : d.ok dmax = true) :
    d.length = 1 ∨ d.length = 2 ∨ d.length = 3 := by
  have := (Descriptor.ok_iff dmax d).mp h
  omega

section
variable (t : Table) (op : Byte) (rest : List Byte)

theorem decode_length1 (h : (t.lookup op).length = 1) :
    decode t (op :: rest) = .ok (if t.bindsFixture op then fixtureL1 op else .opL1 op, rest) := by
  simp [decode, h]

theorem decode_length2 (imm8 : Byte) (h : (t.lookup op).length = 2) :
    decode t (op :: imm8 :: rest) =
      .ok (if t.bindsFixture op then fixtureL2 op imm8 else .opL2 op imm8, rest) := by
  simp [decode, h]

theorem decode_length3 (lo hi : Byte) (h : (t.lookup op).length = 3) :
    decode t (op :: lo :: hi :: rest) =
      .ok (if t.bindsFixture op then fixtureL3 op lo hi else .opL3 op lo hi, rest) := by
  simp [decode, h]

end

/-- What `bindsFixture` says, field by field. -/
theorem Table.bindsFixture_iff (t : Table) (op : Byte) :
    t.bindsFixture op = true ↔
      (t.lookup op).length = (fixtureTable.lookup op).length ∧
      (t.lookup op).duration = (fixtureTable.lookup op).duration ∧
      (t.lookup op).effect = (fixtureTable.lookup op).effect ∧
      (t.lookup op).advancesProgramCounter = (fixtureTable.lookup op).advancesProgramCounter := by
  simp [Table.bindsFixture, Descriptor.sameAs, and_assoc]

/-! ### FT's rows, one by one (95 section 4) -/

@[simp] theorem fixtureTable_lookup_nop : fixtureTable.lookup 0x00#8 = ⟨1, 4, .nothing, true, "NOP"⟩ := rfl
@[simp] theorem fixtureTable_lookup_jrE8 : fixtureTable.lookup 0x18#8 = ⟨2, 12, .jumpRelative, true, "JR e8"⟩ := rfl
@[simp] theorem fixtureTable_lookup_ldSpD16 : fixtureTable.lookup 0x31#8 = ⟨3, 12, .loadSp, true, "LD SP,d16"⟩ := rfl
@[simp] theorem fixtureTable_lookup_incA : fixtureTable.lookup 0x3C#8 = ⟨1, 4, .incA, true, "INC A"⟩ := rfl
@[simp] theorem fixtureTable_lookup_ldAD8 : fixtureTable.lookup 0x3E#8 = ⟨2, 8, .loadImmediateA, true, "LD A,d8"⟩ := rfl
@[simp] theorem fixtureTable_lookup_halt : fixtureTable.lookup 0x76#8 = ⟨1, 4, .halt, true, "HALT"⟩ := rfl
@[simp] theorem fixtureTable_lookup_jpA16 : fixtureTable.lookup 0xC3#8 = ⟨3, 16, .jump, false, "JP a16"⟩ := rfl
@[simp] theorem fixtureTable_lookup_reti : fixtureTable.lookup 0xD9#8 = ⟨1, 16, .returnInterrupt, false, "RETI"⟩ := rfl
@[simp] theorem fixtureTable_lookup_ldA16A : fixtureTable.lookup 0xEA#8 = ⟨3, 16, .storeA, true, "LD (a16),A"⟩ := rfl
@[simp] theorem fixtureTable_lookup_di : fixtureTable.lookup 0xF3#8 = ⟨1, 4, .disableInterrupts, true, "DI"⟩ := rfl
@[simp] theorem fixtureTable_lookup_ldAA16 : fixtureTable.lookup 0xFA#8 = ⟨3, 16, .loadA, true, "LD A,(a16)"⟩ := rfl
@[simp] theorem fixtureTable_lookup_ei : fixtureTable.lookup 0xFB#8 = ⟨1, 4, .enableInterrupts, true, "EI"⟩ := rfl

/-- Every opcode without a row of its own is `ILL`. -/
theorem fixtureTable_lookup_ill (op : Byte) (h : isFixtureOpcode op = false) :
    fixtureTable.lookup op = ⟨1, 4, .nothing, false, "ILL"⟩ := by
  revert op
  decide

/-- What a table that binds `op` as FT does gives it: FT's length, duration, effect and flag. -/
theorem Table.bindsFixture_row (t : Table) (op : Byte) (d : Descriptor) (hd : fixtureTable.lookup op = d)
    (h : t.bindsFixture op = true) :
    (t.lookup op).length = d.length ∧ (t.lookup op).duration = d.duration ∧ (t.lookup op).effect = d.effect ∧
      (t.lookup op).advancesProgramCounter = d.advancesProgramCounter := by
  subst hd
  exact (t.bindsFixture_iff op).mp h

/-- The scan of the dispatch table (60 R119): the least set bit wins. -/
theorem scan_eq (v : Vectors) (p : Byte) :
    scan v p =
      if p.getLsbD 0 then some (.videoBlank, v.videoBlank)
      else if p.getLsbD 1 then some (.displayStatus, v.displayStatus)
      else if p.getLsbD 2 then some (.timer, v.timer)
      else if p.getLsbD 3 then some (.serial, v.serial)
      else if p.getLsbD 4 then some (.joypad, v.joypad)
      else none := by
  simp only [scan, dispatchTable, IrqSource.bit, List.find?]
  split <;> simp_all
  split <;> simp_all
  split <;> simp_all
  split <;> simp_all
  split <;> simp_all

/-- An instruction that decoding selects from a request pattern is a dispatch. -/
theorem decodeInterrupt_cases (v : Vectors) (p : Byte) (i : Instr) (h : decodeInterrupt v p = some i) :
    ∃ k, i = intOf k := by
  simp only [decodeInterrupt, Option.map_eq_some_iff] at h
  obtain ⟨r, _, rfl⟩ := h
  exact ⟨r.1, rfl⟩

@[simp] theorem lowByte_concat (hi lo : Byte) : lowByte (concat hi lo) = lo := by
  apply BitVec.eq_of_getLsbD_eq
  intro i h
  simp only [lowByte, concat, BitVec.getLsbD_extractLsb', BitVec.getLsbD_append]
  simp [h]

@[simp] theorem highByte_concat (hi lo : Byte) : highByte (concat hi lo) = hi := by
  apply BitVec.eq_of_getLsbD_eq
  intro i h
  simp only [highByte, concat, BitVec.getLsbD_extractLsb', BitVec.getLsbD_append]
  simp [h]

@[simp] theorem concat_bytes (v : Word) : concat (highByte v) (lowByte v) = v := by
  apply BitVec.eq_of_getLsbD_eq
  intro i h
  simp only [highByte, lowByte, concat, BitVec.getLsbD_append, BitVec.getLsbD_extractLsb']
  by_cases hi : i < 8
  · simp [hi]
  · have h8 : i - 8 < 8 := by omega
    have hs : 8 + (i - 8) = i := by omega
    simp [hi, h8, hs]

@[simp] theorem lowByte_zext16 (b : Byte) : lowByte (zext16 b) = b := by
  apply BitVec.eq_of_getLsbD_eq
  intro i h
  have h16 : i < 16 := by omega
  simp [lowByte, zext16, h, h16]

end Sys2Proof
end

