-- ==== Sys2Proof/Laws/Ops.lean ====
section
/-! SUPPORT. What the shared operations can do: the Bus port, effects, completing an instruction, taking an interrupt, the
environment. -/

namespace Sys2Proof.Machine

theorem addr_lt (a : Word) : a.toNat < 2 ^ 16 := a.isLt

/-! ### The Bus -/

/-- Everything a read does: it answers, logs itself, and uses up a free value if the address is a device. -/
theorem State.busRead_eq (s : State) (a : Word) :
    s.busRead a = (s.busValue a,
      { s with
        fresh := if s.kindAt a = .device then s.fresh + 1 else s.fresh
        ports := s.ports ++ [.busRead a (s.busValue a)] }) := by
  simp only [State.busRead]
  split <;> rfl

section
variable (s : State) (a : Word)
@[simp] theorem State.busRead_value : (s.busRead a).1 = s.busValue a := rfl
@[simp] theorem State.busRead_regs : (s.busRead a).2.regs = s.regs := by rw [State.busRead_eq]
@[simp] theorem State.busRead_pc : (s.busRead a).2.pc = s.pc := by rw [State.busRead_eq]
@[simp] theorem State.busRead_sp : (s.busRead a).2.sp = s.sp := by rw [State.busRead_eq]
@[simp] theorem State.busRead_ime : (s.busRead a).2.ime = s.ime := by rw [State.busRead_eq]
@[simp] theorem State.busRead_halted : (s.busRead a).2.halted = s.halted := by rw [State.busRead_eq]
@[simp] theorem State.busRead_elapsedCycles : (s.busRead a).2.elapsedCycles = s.elapsedCycles := by
  rw [State.busRead_eq]
@[simp] theorem State.busRead_requestedFlags : (s.busRead a).2.requestedFlags = s.requestedFlags := by
  rw [State.busRead_eq]
@[simp] theorem State.busRead_enabledMask : (s.busRead a).2.enabledMask = s.enabledMask := by rw [State.busRead_eq]
@[simp] theorem State.busRead_mem : (s.busRead a).2.mem = s.mem := by rw [State.busRead_eq]
@[simp] theorem State.busRead_busMap : (s.busRead a).2.busMap = s.busMap := by rw [State.busRead_eq]
@[simp] theorem State.busRead_cfg : (s.busRead a).2.cfg = s.cfg := by rw [State.busRead_eq]
@[simp] theorem State.busRead_inputs : (s.busRead a).2.inputs = s.inputs := by rw [State.busRead_eq]
@[simp] theorem State.busRead_ports :
    (s.busRead a).2.ports = s.ports ++ [.busRead a (s.busValue a)] := by rw [State.busRead_eq]
end

theorem State.plainAt_iff (s : State) (a : Word) : s.plainAt a = true ↔ s.kindAt a = .ram ∨ s.kindAt a = .rom := by
  simp [State.plainAt]

theorem State.ramAt_iff (s : State) (a : Word) : s.ramAt a = true ↔ s.kindAt a = .ram := by
  simp [State.ramAt]

theorem State.plainAt_of_ramAt (s : State) (a : Word) (h : s.ramAt a = true) : s.plainAt a = true :=
  (s.plainAt_iff a).mpr (.inl ((s.ramAt_iff a).mp h))

theorem State.busValue_plain (s : State) (a : Word) (h : s.plainAt a = true) : s.busValue a = s.byteAt a := by
  rcases (s.plainAt_iff a).mp h with h | h <;> simp [State.busValue, h]

/-- A read of plain memory answers the byte held and changes nothing but the log. -/
theorem State.busRead_plain (s : State) (a : Word) (h : s.plainAt a = true) :
    s.busRead a = (s.byteAt a, { s with ports := s.ports ++ [.busRead a (s.byteAt a)] }) := by
  rw [State.busRead_eq, s.busValue_plain a h]
  rcases (s.plainAt_iff a).mp h with h | h <;> simp [h]

section
variable (s : State) (a : Word) (v : Byte)
@[simp] theorem State.busWrite_regs : (s.busWrite a v).regs = s.regs := by
  simp only [State.busWrite]; split <;> rfl
@[simp] theorem State.busWrite_pc : (s.busWrite a v).pc = s.pc := by
  simp only [State.busWrite]; split <;> rfl
@[simp] theorem State.busWrite_sp : (s.busWrite a v).sp = s.sp := by
  simp only [State.busWrite]; split <;> rfl
@[simp] theorem State.busWrite_ime : (s.busWrite a v).ime = s.ime := by
  simp only [State.busWrite]; split <;> rfl
@[simp] theorem State.busWrite_halted : (s.busWrite a v).halted = s.halted := by
  simp only [State.busWrite]; split <;> rfl
@[simp] theorem State.busWrite_elapsedCycles : (s.busWrite a v).elapsedCycles = s.elapsedCycles := by
  simp only [State.busWrite]; split <;> rfl
@[simp] theorem State.busWrite_busMap : (s.busWrite a v).busMap = s.busMap := by
  simp only [State.busWrite]; split <;> rfl
@[simp] theorem State.busWrite_cfg : (s.busWrite a v).cfg = s.cfg := by
  simp only [State.busWrite]; split <;> rfl
@[simp] theorem State.busWrite_inputs : (s.busWrite a v).inputs = s.inputs := by
  simp only [State.busWrite]; split <;> rfl
@[simp] theorem State.busWrite_fresh : (s.busWrite a v).fresh = s.fresh := by
  simp only [State.busWrite]; split <;> rfl
@[simp] theorem State.busWrite_ports : (s.busWrite a v).ports = s.ports ++ [.busWrite a v] := by
  simp only [State.busWrite]; split <;> rfl

/-- A write changes memory only at its own address, and only where RAM is mapped. -/
theorem State.busWrite_mem :
    (s.busWrite a v).mem = if s.kindAt a = .ram then Memory.write s.mem a.toNat v else s.mem := by
  simp only [State.busWrite]; split <;> simp_all

/-- A write reaches `requestedFlags` only where the Bus maps that register. -/
theorem State.busWrite_requestedFlags :
    (s.busWrite a v).requestedFlags = if s.kindAt a = .intRequest then v else s.requestedFlags := by
  simp only [State.busWrite]; split <;> simp_all

/-- A write reaches `enabledMask` only where the Bus maps that register. -/
theorem State.busWrite_enabledMask :
    (s.busWrite a v).enabledMask = if s.kindAt a = .intEnable then v else s.enabledMask := by
  simp only [State.busWrite]; split <;> simp_all
end

/-- A write to RAM stores and logs, nothing else. -/
theorem State.busWrite_ram (s : State) (a : Word) (v : Byte) (h : s.ramAt a = true) :
    s.busWrite a v =
      { s with mem := Memory.write s.mem a.toNat v, ports := s.ports ++ [.busWrite a v] } := by
  simp only [State.busWrite, (s.ramAt_iff a).mp h]
  rfl

theorem State.toNat_ne (a b : Word) (h : b ≠ a) : b.toNat ≠ a.toNat := fun e => h (BitVec.eq_of_toNat_eq e)

/-- A write leaves every byte it does not store to. -/
theorem State.busWrite_byteAt_other (s : State) (a b : Word) (v : Byte) (h : b ≠ a ∨ s.ramAt a = false) :
    (s.busWrite a v).byteAt b = s.byteAt b := by
  simp only [State.byteAt, State.busWrite_mem]
  split
  · rename_i hk
    have hr : s.ramAt a = true := (s.ramAt_iff a).mpr hk
    rcases h with h | h
    · exact Memory.read_write_other _ _ _ _ (State.toNat_ne a b h)
    · simp [hr] at h
  · rfl

theorem State.busWrite_byteAt_same (s : State) (a : Word) (v : Byte) (h : s.ramAt a = true) :
    (s.busWrite a v).byteAt a = v := by
  simp [State.byteAt, State.busWrite_mem, (s.ramAt_iff a).mp h]

theorem State.busWrite_memWf (s : State) (a : Word) (v : Byte) (h : s.memWf = true) : (s.busWrite a v).memWf = true := by
  simp only [State.memWf, State.busWrite_mem]
  split
  · exact Memory.wf_write _ _ _ (addr_lt a) h
  · exact h

/-! ### Register files -/

@[simp] theorem RegFile.shape_set8 (r : RegFile) (i : Nat) (v : Byte) :
    RegFile.shape (RegFile.set8 r i v) = RegFile.shape r := by
  simp [RegFile.shape, RegFile.set8]

@[simp] theorem RegFile.shape_set16 (r : RegFile) (i : Nat) (v : Word) :
    RegFile.shape (RegFile.set16 r i v) = RegFile.shape r := by
  simp [RegFile.shape, RegFile.set16]

@[simp] theorem RegFile.shape_zeroed (r : RegFile) : RegFile.shape (RegFile.zeroed r) = RegFile.shape r := by
  simp [RegFile.shape, RegFile.zeroed]

theorem RegFile.get8_set8_same (r : RegFile) (i : Nat) (v : Byte) (h : i < r.r8.length) :
    RegFile.get8 (RegFile.set8 r i v) i = v := by
  simp [RegFile.get8, RegFile.set8, h]

theorem RegFile.get8_set8_other (r : RegFile) (i j : Nat) (v : Byte) (h : j ≠ i) :
    RegFile.get8 (RegFile.set8 r i v) j = RegFile.get8 r j := by
  simp [RegFile.get8, RegFile.set8, Ne.symm h]

/-! ### Effects -/

section
variable (s : State) (w : FieldWrite)
@[simp] theorem State.put_elapsedCycles : (s.put w).elapsedCycles = s.elapsedCycles := by cases w <;> rfl
@[simp] theorem State.put_requestedFlags : (s.put w).requestedFlags = s.requestedFlags := by cases w <;> rfl
@[simp] theorem State.put_enabledMask : (s.put w).enabledMask = s.enabledMask := by cases w <;> rfl
@[simp] theorem State.put_mem : (s.put w).mem = s.mem := by cases w <;> rfl
@[simp] theorem State.put_busMap : (s.put w).busMap = s.busMap := by cases w <;> rfl
@[simp] theorem State.put_cfg : (s.put w).cfg = s.cfg := by cases w <;> rfl
@[simp] theorem State.put_inputs : (s.put w).inputs = s.inputs := by cases w <;> rfl
@[simp] theorem State.put_ports : (s.put w).ports = s.ports := by cases w <;> rfl
@[simp] theorem State.put_fresh : (s.put w).fresh = s.fresh := by cases w <;> rfl
@[simp] theorem State.put_shape : RegFile.shape (s.put w).regs = RegFile.shape s.regs := by
  cases w <;> simp [State.put]
end

/-- What no effect can do to one field: prove it of the four primitives, and it holds of every effect. -/
theorem runEffect_keeps {α : Type} (f : State → α) (hput : ∀ s w, f (State.put s w) = f s)
    (hread : ∀ s a, f (State.busRead s a).2 = f s) (hwrite : ∀ s a v, f (State.busWrite s a v) = f s) (e : Effect)
    (s : State) : f (runEffect e s) = f s := by
  induction e generalizing s with
  | done => rfl
  | get k ih => exact ih _ s
  | put w next ih => rw [runEffect, ih, hput]
  | busRead a k ih => rw [runEffect, ih, hread]
  | busWrite a v next ih => rw [runEffect, ih, hwrite]

/-- What every effect keeps: prove it of the four primitives, and it holds of every effect. -/
theorem runEffect_invariant (P : State → Prop) (hput : ∀ s w, P s → P (State.put s w))
    (hread : ∀ s a, P s → P (State.busRead s a).2) (hwrite : ∀ s a v, P s → P (State.busWrite s a v)) (e : Effect)
    (s : State) (h : P s) : P (runEffect e s) := by
  induction e generalizing s with
  | done => exact h
  | get k ih => exact ih _ s h
  | put w next ih => exact ih _ (hput s w h)
  | busRead a k ih => exact ih _ _ (hread s a h)
  | busWrite a v next ih => exact ih _ (hwrite s a v h)

section
variable (e : Effect) (s : State)
@[simp] theorem runEffect_elapsedCycles : (runEffect e s).elapsedCycles = s.elapsedCycles :=
  runEffect_keeps (·.elapsedCycles) (by simp) (by simp) (by simp) e s
@[simp] theorem runEffect_cfg : (runEffect e s).cfg = s.cfg :=
  runEffect_keeps (·.cfg) (by simp) (by simp) (by simp) e s
@[simp] theorem runEffect_busMap : (runEffect e s).busMap = s.busMap :=
  runEffect_keeps (·.busMap) (by simp) (by simp) (by simp) e s
@[simp] theorem runEffect_inputs : (runEffect e s).inputs = s.inputs :=
  runEffect_keeps (·.inputs) (by simp) (by simp) (by simp) e s
@[simp] theorem runEffect_shape : RegFile.shape (runEffect e s).regs = RegFile.shape s.regs :=
  runEffect_keeps (fun t => RegFile.shape t.regs) (by simp) (by simp) (by simp) e s

theorem runEffect_memWf (h : s.memWf = true) : (runEffect e s).memWf = true :=
  runEffect_invariant (fun t => t.memWf = true) (fun t w => by simp [State.memWf]) (fun t a => by simp [State.memWf])
    (fun t a v => State.busWrite_memWf t a v) e s h

theorem runEffect_halted (h : s.halted = true) : (runEffect e s).halted = true := by
  refine runEffect_invariant (fun t => t.halted = true) (fun t w ht => ?_) (fun t a => by simp) (fun t a v => by simp)
    e s h
  cases w <;> simp [State.put, ht]
end

/-! ### Completing an instruction -/

section
variable (e : Effect) (operand : Word) (length : Nat) (advances : Bool) (s : State)

/-- Everything completing an instruction does besides its effect: `pc` and the count (40 R72, R73). -/
theorem completeInstr_eq :
    completeInstr e operand length advances s =
      { runEffect e (s.log (.effect operand)) with
        pc := if advances then (runEffect e (s.log (.effect operand))).pc + BitVec.ofNat 16 length
              else (runEffect e (s.log (.effect operand))).pc
        elapsedCycles := 0 } := by
  simp only [completeInstr]
  cases advances <;> rfl

@[simp] theorem completeInstr_elapsedCycles : (completeInstr e operand length advances s).elapsedCycles = 0 := by
  rw [completeInstr_eq]
@[simp] theorem completeInstr_cfg : (completeInstr e operand length advances s).cfg = s.cfg := by
  rw [completeInstr_eq]; simp
@[simp] theorem completeInstr_busMap : (completeInstr e operand length advances s).busMap = s.busMap := by
  rw [completeInstr_eq]; simp
@[simp] theorem completeInstr_inputs : (completeInstr e operand length advances s).inputs = s.inputs := by
  rw [completeInstr_eq]; simp
@[simp] theorem completeInstr_shape :
    RegFile.shape (completeInstr e operand length advances s).regs = RegFile.shape s.regs := by
  rw [completeInstr_eq]; simp

theorem completeInstr_memWf (h : s.memWf = true) : (completeInstr e operand length advances s).memWf = true := by
  have hl : (s.log (.effect operand)).memWf = true := h
  rw [completeInstr_eq]
  exact runEffect_memWf e _ hl

theorem completeInstr_halted (h : s.halted = true) : (completeInstr e operand length advances s).halted = true := by
  have hl : (s.log (.effect operand)).halted = true := h
  rw [completeInstr_eq]
  exact runEffect_halted e _ hl
end

/-! ### Taking an interrupt -/

section
variable (s : State)
@[simp] theorem State.pushPc_regs : s.pushPc.regs = s.regs := by simp [State.pushPc]
@[simp] theorem State.pushPc_pc : s.pushPc.pc = s.pc := by simp [State.pushPc]
@[simp] theorem State.pushPc_sp : s.pushPc.sp = s.sp - 2 := by simp [State.pushPc]
@[simp] theorem State.pushPc_ime : s.pushPc.ime = s.ime := by simp [State.pushPc]
@[simp] theorem State.pushPc_halted : s.pushPc.halted = s.halted := by simp [State.pushPc]
@[simp] theorem State.pushPc_elapsedCycles : s.pushPc.elapsedCycles = s.elapsedCycles := by simp [State.pushPc]
@[simp] theorem State.pushPc_busMap : s.pushPc.busMap = s.busMap := by simp [State.pushPc]
@[simp] theorem State.pushPc_cfg : s.pushPc.cfg = s.cfg := by simp [State.pushPc]
@[simp] theorem State.pushPc_inputs : s.pushPc.inputs = s.inputs := by simp [State.pushPc]
@[simp] theorem State.pushPc_fresh : s.pushPc.fresh = s.fresh := by simp [State.pushPc]

theorem State.pushPc_memWf (h : s.memWf = true) : s.pushPc.memWf = true :=
  State.busWrite_memWf _ _ _ (State.busWrite_memWf s _ _ h)
end

section
variable (s : State) (m : Byte)
@[simp] theorem State.clearIF_requestedFlags : (s.clearIF m).requestedFlags = s.requestedFlags &&& ~~~m := rfl
end

/-- Acknowledging changes `requestedFlags` and the log, nothing else. -/
theorem State.acknowledge_eq (s : State) (w : Option IrqSource) :
    s.acknowledge w = { s with
      requestedFlags := (s.acknowledge w).requestedFlags, ports := (s.acknowledge w).ports } := by
  cases hp : s.cfg.ackPolicy <;> cases w <;> simp only [State.acknowledge, hp] <;> rfl

section
variable (w : Option IrqSource) (s : State)

/-- Everything taking an interrupt does: the push, `ime`, `halted`, `pc`, the acknowledge (60 R132). -/
theorem takeInterrupt_eq :
    takeInterrupt w s =
      State.acknowledge { s.pushPc with
        ime := false
        halted := false
        pc := match w with
          | some k => s.cfg.vec.get k
          | none => s.pc } w := by
  cases w with
  | none => simp [takeInterrupt, State.setIme, State.setHalted]
  | some k => simp [takeInterrupt, State.setIme, State.setHalted, State.setPc]

@[simp] theorem takeInterrupt_regs : (takeInterrupt w s).regs = s.regs := by
  rw [takeInterrupt_eq, State.acknowledge_eq]; simp
@[simp] theorem takeInterrupt_sp : (takeInterrupt w s).sp = s.sp - 2 := by
  rw [takeInterrupt_eq, State.acknowledge_eq]; simp
@[simp] theorem takeInterrupt_ime : (takeInterrupt w s).ime = false := by
  rw [takeInterrupt_eq, State.acknowledge_eq]
@[simp] theorem takeInterrupt_halted : (takeInterrupt w s).halted = false := by
  rw [takeInterrupt_eq, State.acknowledge_eq]
@[simp] theorem takeInterrupt_elapsedCycles : (takeInterrupt w s).elapsedCycles = s.elapsedCycles := by
  rw [takeInterrupt_eq, State.acknowledge_eq]; simp
@[simp] theorem takeInterrupt_mem : (takeInterrupt w s).mem = s.pushPc.mem := by
  rw [takeInterrupt_eq, State.acknowledge_eq]
@[simp] theorem takeInterrupt_busMap : (takeInterrupt w s).busMap = s.busMap := by
  rw [takeInterrupt_eq, State.acknowledge_eq]; simp
@[simp] theorem takeInterrupt_cfg : (takeInterrupt w s).cfg = s.cfg := by
  rw [takeInterrupt_eq, State.acknowledge_eq]; simp
@[simp] theorem takeInterrupt_inputs : (takeInterrupt w s).inputs = s.inputs := by
  rw [takeInterrupt_eq, State.acknowledge_eq]; simp
@[simp] theorem takeInterrupt_fresh : (takeInterrupt w s).fresh = s.fresh := by
  rw [takeInterrupt_eq, State.acknowledge_eq]; simp
end

@[simp] theorem takeInterrupt_some_pc (k : IrqSource) (s : State) :
    (takeInterrupt (some k) s).pc = s.cfg.vec.get k := by
  rw [takeInterrupt_eq, State.acknowledge_eq]

@[simp] theorem takeInterrupt_none_pc (s : State) : (takeInterrupt none s).pc = s.pc := by
  rw [takeInterrupt_eq, State.acknowledge_eq]

theorem takeInterrupt_memWf (w : Option IrqSource) (s : State) (h : s.memWf = true) :
    (takeInterrupt w s).memWf = true := by
  have := s.pushPc_memWf h
  simpa [State.memWf] using this

/-- The push stores exactly two bytes, where RAM is mapped (60 R116). -/
theorem State.pushPc_byteAt_other (s : State) (b : Word) (h1 : b ≠ s.sp - 1 ∨ s.ramAt (s.sp - 1) = false)
    (h2 : b ≠ s.sp - 2 ∨ s.ramAt (s.sp - 2) = false) : s.pushPc.byteAt b = s.byteAt b := by
  have hk : ∀ a v c, (s.busWrite a v).ramAt c = s.ramAt c := by
    intro a v c; simp [State.ramAt, State.kindAt]
  show ((s.busWrite _ _).busWrite _ _).byteAt b = _
  rw [State.busWrite_byteAt_other _ _ _ _ (by simpa [hk] using h2), State.busWrite_byteAt_other _ _ _ _ h1]

/-- A pushed byte lands where its address is RAM. -/
theorem State.pushPc_byteAt_high (s : State) (h : s.ramAt (s.sp - 1) = true) :
    s.pushPc.byteAt (s.sp - 1) = highByte s.pc := by
  have hne : s.sp - 1 ≠ s.sp - 2 := by bv_omega
  show ((s.busWrite _ _).busWrite _ _).byteAt _ = _
  rw [State.busWrite_byteAt_other _ _ _ _ (.inl hne), State.busWrite_byteAt_same _ _ _ h]

theorem State.pushPc_byteAt_low (s : State) (h : s.ramAt (s.sp - 2) = true) :
    s.pushPc.byteAt (s.sp - 2) = lowByte s.pc := by
  show ((s.busWrite _ _).busWrite _ _).byteAt _ = _
  rw [State.busWrite_byteAt_same _ _ _ (by simpa [State.ramAt, State.kindAt] using h)]

/-- What the push leaves in the two controller registers. -/
theorem State.pushPc_enabledMask (s : State) : s.pushPc.enabledMask = s.pushedOnto .intEnable s.enabledMask := by
  have hk : (s.busWrite (s.sp - 1) (highByte s.pc)).kindAt (s.sp - 2) = s.kindAt (s.sp - 2) := by simp [State.kindAt]
  show ((s.busWrite _ _).busWrite _ _).enabledMask = _
  rw [State.busWrite_enabledMask, State.busWrite_enabledMask, hk]
  rfl

theorem State.pushPc_requestedFlags (s : State) :
    s.pushPc.requestedFlags = s.pushedOnto .intRequest s.requestedFlags := by
  have hk : (s.busWrite (s.sp - 1) (highByte s.pc)).kindAt (s.sp - 2) = s.kindAt (s.sp - 2) := by simp [State.kindAt]
  show ((s.busWrite _ _).busWrite _ _).requestedFlags = _
  rw [State.busWrite_requestedFlags, State.busWrite_requestedFlags, hk]
  rfl

@[simp] theorem State.pushPc_ports (s : State) :
    s.pushPc.ports = s.ports ++ [.busWrite (s.sp - 1) (highByte s.pc), .busWrite (s.sp - 2) (lowByte s.pc)] := by
  simp [State.pushPc]

/-- A register that the push spares keeps its value. -/
theorem State.pushedOnto_spared (s : State) (kind : RegionKind) (old : Byte) (h : s.pushSpares kind = true) :
    s.pushedOnto kind old = old := by
  simp only [State.pushSpares, Bool.and_eq_true, bne_iff_ne] at h
  rw [State.pushedOnto, if_neg h.2, if_neg h.1]

/-! ### Instructions and the environment -/

/-- Every arm of `exec` is a completed instruction or a dispatch, so `exec` always answers a next state (00 R7). -/
theorem exec_cases (i : Instr) (s : State) :
    (∃ e operand length advances, exec i s = .next (completeInstr e operand length advances s)) ∨
    (∃ k, i = intOf k ∧ exec i s = .next (takeInterrupt (some k) s)) := by
  cases i with
  | int0 => exact .inr ⟨.videoBlank, rfl, rfl⟩
  | int1 => exact .inr ⟨.displayStatus, rfl, rfl⟩
  | int2 => exact .inr ⟨.timer, rfl, rfl⟩
  | int3 => exact .inr ⟨.serial, rfl, rfl⟩
  | int4 => exact .inr ⟨.joypad, rfl, rfl⟩
  | _ => exact .inl ⟨_, _, _, _, rfl⟩

theorem exec_intOf (k : IrqSource) (s : State) : exec (intOf k) s = .next (takeInterrupt (some k) s) := by
  cases k <;> rfl

/-- The environment's moves touch the controller and the Bus only (20 R47). -/
theorem State.environment_keeps {α : Type} (f : State → α) (h : ∀ s m, f (State.envMove s m) = f s)
    (moves : List EnvMove) (s : State) : f (s.environment moves) = f s := by
  induction moves generalizing s with
  | nil => rfl
  | cons m rest ih =>
    show f ((s.envMove m).environment rest) = f s
    rw [ih, h]

@[simp] theorem State.environment_nil (s : State) : s.environment [] = s := rfl

section
variable (moves : List EnvMove) (s : State)
@[simp] theorem State.environment_pc : (s.environment moves).pc = s.pc :=
  State.environment_keeps (·.pc) (by intro s m; cases m <;> rfl) moves s
@[simp] theorem State.environment_halted : (s.environment moves).halted = s.halted :=
  State.environment_keeps (·.halted) (by intro s m; cases m <;> rfl) moves s
@[simp] theorem State.environment_ime : (s.environment moves).ime = s.ime :=
  State.environment_keeps (·.ime) (by intro s m; cases m <;> rfl) moves s
@[simp] theorem State.environment_cfg : (s.environment moves).cfg = s.cfg :=
  State.environment_keeps (·.cfg) (by intro s m; cases m <;> rfl) moves s
@[simp] theorem State.environment_elapsedCycles : (s.environment moves).elapsedCycles = s.elapsedCycles :=
  State.environment_keeps (·.elapsedCycles) (by intro s m; cases m <;> rfl) moves s
@[simp] theorem State.environment_inputs : (s.environment moves).inputs = s.inputs :=
  State.environment_keeps (·.inputs) (by intro s m; cases m <;> rfl) moves s
@[simp] theorem State.environment_regs : (s.environment moves).regs = s.regs :=
  State.environment_keeps (·.regs) (by intro s m; cases m <;> rfl) moves s
@[simp] theorem State.environment_sp : (s.environment moves).sp = s.sp :=
  State.environment_keeps (·.sp) (by intro s m; cases m <;> rfl) moves s

theorem State.environment_memWf (h : s.memWf = true) : (s.environment moves).memWf = true := by
  induction moves generalizing s with
  | nil => exact h
  | cons m rest ih =>
    refine ih (s.envMove m) ?_
    cases m with
    | poke a v => exact Memory.wf_write _ _ _ (addr_lt a) h
    | _ => exact h
end

end Sys2Proof.Machine
end

