-- ==== Sys2Proof/Laws/PerInstr.lean ====
section
/-! SUPPORT. Statements about every instruction, one lemma per constructor. EncLen: an instruction that is fetched is encoded
in one, two or three bytes, and a dispatch is not encoded in bytes but in one request bit (30 R50, R60). -/

namespace Sys2Proof.Laws.EncLen

/-- Either one to three bytes and no request pattern, or no bytes and a request pattern within the five significant bits. -/
def Statement (i : Instr) : Prop :=
  match encode i with
  | some bs => 1 ≤ bs.length ∧ bs.length ≤ 3 ∧ encodeInterrupt i = none
  | none => ∃ p, encodeInterrupt i = some p ∧ p &&& significant = p ∧ p ≠ 0#8

theorem opL1 (op : Byte) : Statement (.opL1 op) := ⟨Nat.le_of_ble_eq_true rfl, Nat.le_of_ble_eq_true rfl, rfl⟩
theorem opL2 (op imm8 : Byte) : Statement (.opL2 op imm8) := ⟨Nat.le_of_ble_eq_true rfl, Nat.le_of_ble_eq_true rfl, rfl⟩
theorem opL3 (op lo hi : Byte) : Statement (.opL3 op lo hi) := ⟨Nat.le_of_ble_eq_true rfl, Nat.le_of_ble_eq_true rfl, rfl⟩
theorem int0 : Statement .int0 := ⟨_, rfl, by decide, by decide⟩
theorem int1 : Statement .int1 := ⟨_, rfl, by decide, by decide⟩
theorem int2 : Statement .int2 := ⟨_, rfl, by decide, by decide⟩
theorem int3 : Statement .int3 := ⟨_, rfl, by decide, by decide⟩
theorem int4 : Statement .int4 := ⟨_, rfl, by decide, by decide⟩
theorem nop : Statement .nop := ⟨Nat.le_of_ble_eq_true rfl, Nat.le_of_ble_eq_true rfl, rfl⟩
theorem jrE8 (e8 : Byte) : Statement (.jrE8 e8) := ⟨Nat.le_of_ble_eq_true rfl, Nat.le_of_ble_eq_true rfl, rfl⟩
theorem ldSpD16 (d16 : Word) : Statement (.ldSpD16 d16) := ⟨Nat.le_of_ble_eq_true rfl, Nat.le_of_ble_eq_true rfl, rfl⟩
theorem incA : Statement .incA := ⟨Nat.le_of_ble_eq_true rfl, Nat.le_of_ble_eq_true rfl, rfl⟩
theorem ldAD8 (d8 : Byte) : Statement (.ldAD8 d8) := ⟨Nat.le_of_ble_eq_true rfl, Nat.le_of_ble_eq_true rfl, rfl⟩
theorem halt : Statement .halt := ⟨Nat.le_of_ble_eq_true rfl, Nat.le_of_ble_eq_true rfl, rfl⟩
theorem jpA16 (a16 : Word) : Statement (.jpA16 a16) := ⟨Nat.le_of_ble_eq_true rfl, Nat.le_of_ble_eq_true rfl, rfl⟩
theorem reti : Statement .reti := ⟨Nat.le_of_ble_eq_true rfl, Nat.le_of_ble_eq_true rfl, rfl⟩
theorem ldA16A (a16 : Word) : Statement (.ldA16A a16) := ⟨Nat.le_of_ble_eq_true rfl, Nat.le_of_ble_eq_true rfl, rfl⟩
theorem di : Statement .di := ⟨Nat.le_of_ble_eq_true rfl, Nat.le_of_ble_eq_true rfl, rfl⟩
theorem ldAA16 (a16 : Word) : Statement (.ldAA16 a16) := ⟨Nat.le_of_ble_eq_true rfl, Nat.le_of_ble_eq_true rfl, rfl⟩
theorem ei : Statement .ei := ⟨Nat.le_of_ble_eq_true rfl, Nat.le_of_ble_eq_true rfl, rfl⟩
theorem ill (op : Byte) : Statement (.ill op) := ⟨Nat.le_of_ble_eq_true rfl, Nat.le_of_ble_eq_true rfl, rfl⟩

end Sys2Proof.Laws.EncLen
end

