-- ==== Sys2Proof/Laws/Tick.lean ====
section
/-! SUPPORT. What the two operations of a tick, and a step, can do: one inversion lemma each. -/

namespace Sys2Proof.Machine

/-! ### `cycle` -/

/-- What the fetch and the count do (40 R67-R69). -/
theorem State.fetchOpcode_eq (s : State) :
    s.fetchOpcode = (s.busValue s.pc,
      { s with
        elapsedCycles := s.elapsedCycles + 1
        fresh := if s.kindAt s.pc = .device then s.fresh + 1 else s.fresh
        ports := s.ports ++ [.busRead s.pc (s.busValue s.pc), .lookup (s.busValue s.pc)] }) := by
  simp only [State.fetchOpcode, State.busRead_eq]
  simp [State.log, State.setPorts, State.setElapsed]

/-- Everything the fetch of an instruction does on any Bus (40 R67-R70): the bytes answered, and the state it leaves. -/
theorem State.fetch_eq (s : State) (n : Nat) :
    s.fetchOpcode.1 = s.opcodeAnswer ∧
    s.fetchOpcode.2.fetchOperand n =
      (if n = 2 then [s.lowAnswer] else if n = 3 then [s.lowAnswer, s.highAnswer] else [], s.answered n) := by
  refine ⟨by rw [State.fetchOpcode_eq]; rfl, ?_⟩
  match n with
  | 0 => rw [State.fetchOpcode_eq]; rfl
  | 1 => rw [State.fetchOpcode_eq]; rfl
  | 2 =>
    simp only [State.fetchOpcode_eq, State.fetchOperand, State.busRead_eq]
    simp [State.answered, State.afterFetch, State.answerPorts, State.opcodeAnswer, State.lowAnswer, State.afterRead,
      State.busValue, State.kindAt, State.byteAt]
  | 3 =>
    simp only [State.fetchOpcode_eq, State.fetchOperand, State.busRead_eq]
    simp [State.answered, State.afterFetch, State.answerPorts, State.opcodeAnswer, State.lowAnswer, State.highAnswer,
      State.afterRead, State.busValue, State.kindAt, State.byteAt]
  | _ + 4 => rw [State.fetchOpcode_eq]; rfl

/-- Reading the operand bytes touches the log and the free values only. -/
theorem State.fetchOperand_eq (s : State) (n : Nat) :
    (s.fetchOperand n).2 = { s with
      fresh := (s.fetchOperand n).2.fresh, ports := (s.fetchOperand n).2.ports } := by
  match n with
  | 0 => rfl
  | 1 => rfl
  | 2 => simp only [State.fetchOperand, State.busRead_eq]
  | 3 => simp only [State.fetchOperand, State.busRead_eq]
  | _ + 4 => rfl

theorem fixtureL1_ne_intOf (op : Byte) (k : IrqSource) : fixtureL1 op ≠ intOf k := by
  unfold fixtureL1
  cases k <;> repeat' split
  all_goals simp [intOf]

theorem fixtureL2_ne_intOf (op b : Byte) (k : IrqSource) : fixtureL2 op b ≠ intOf k := by
  unfold fixtureL2
  cases k <;> repeat' split
  all_goals simp [intOf]

theorem fixtureL3_ne_intOf (op lo hi : Byte) (k : IrqSource) : fixtureL3 op lo hi ≠ intOf k := by
  unfold fixtureL3
  cases k <;> repeat' split
  all_goals simp [intOf]

/-- A dispatch is never decoded from memory (60 section 4). -/
theorem decode_ne_intOf (t : Table) (bs : List Byte) (i : Instr) (rest : List Byte) (k : IrqSource)
    (h : decode t bs = .ok (i, rest)) : i ≠ intOf k := by
  unfold decode at h
  split at h
  · simp at h
  · split at h
    · simp only [Except.ok.injEq, Prod.mk.injEq] at h
      obtain ⟨rfl, -⟩ := h
      split
      · exact fixtureL1_ne_intOf _ k
      · cases k <;> simp [intOf]
    · simp only [Except.ok.injEq, Prod.mk.injEq] at h
      obtain ⟨rfl, -⟩ := h
      split
      · exact fixtureL2_ne_intOf _ _ k
      · cases k <;> simp [intOf]
    · simp only [Except.ok.injEq, Prod.mk.injEq] at h
      obtain ⟨rfl, -⟩ := h
      split
      · exact fixtureL3_ne_intOf _ _ _ k
      · cases k <;> simp [intOf]
    all_goals simp at h

/-- A fetched instruction completes: it runs one effect and nothing else (40 R71-R73). -/
theorem exec_decoded (t : Table) (bs : List Byte) (i : Instr) (rest : List Byte) (s : State)
    (h : decode t bs = .ok (i, rest)) :
    ∃ e operand length advances, exec i s = .next (completeInstr e operand length advances s) := by
  rcases exec_cases i s with hc | ⟨k, hk, -⟩
  · exact hc
  · exact absurd hk (decode_ne_intOf t bs i rest k h)

/-- A completion tick of a table within the contract runs an instruction. -/
theorem completionTick_next (op : Byte) (s : State) (h : (s.cfg.itab.lookup op).ok s.cfg.dmax = true) :
    ∃ i rest, decode s.cfg.itab (op :: (s.fetchOperand (s.cfg.itab.lookup op).length).1) = .ok (i, rest) ∧
      completionTick op s = exec i (s.fetchOperand (s.cfg.itab.lookup op).length).2 := by
  have hd : ∃ i rest, decode s.cfg.itab (op :: (s.fetchOperand (s.cfg.itab.lookup op).length).1) = .ok (i, rest) := by
    rcases Descriptor.length_cases _ _ h with hl | hl | hl
    · exact ⟨_, _, decode_length1 _ _ _ hl⟩
    · rw [hl]; exact ⟨_, _, decode_length2 _ _ _ _ hl⟩
    · rw [hl]; exact ⟨_, _, decode_length3 _ _ _ _ _ hl⟩
  obtain ⟨i, rest, hi⟩ := hd
  exact ⟨i, rest, hi, by simp only [completionTick, hi]⟩

/-- The three kinds of `cycle` call (40 R66, R81): gated, in flight, completion. -/
theorem cycle_cases (s t : State) (h : cycle s = .next t) :
    (s.gated = true ∧ t = s) ∨
    (s.gated = false ∧ s.elapsedCycles + 1 < (s.cfg.itab.lookup (s.busValue s.pc)).duration ∧ t = s.fetchOpcode.2) ∨
    (s.gated = false ∧ (s.cfg.itab.lookup (s.busValue s.pc)).duration ≤ s.elapsedCycles + 1 ∧
      ∃ e operand length advances fresh ports, t = completeInstr e operand length advances
        { s with elapsedCycles := s.elapsedCycles + 1, fresh := fresh, ports := ports }) := by
  unfold cycle at h
  by_cases hg : s.halted && s.cfg.haltGatesCycle
  · rw [if_pos hg] at h
    left
    exact ⟨hg, by cases h; rfl⟩
  · have hg' : s.gated = false := by simpa [State.gated] using hg
    rw [if_neg hg] at h
    simp only [State.fetchOpcode_eq] at h
    split at h
    · rename_i hlt
      right; left
      refine ⟨hg', hlt, ?_⟩
      rw [State.fetchOpcode_eq]
      cases h; rfl
    · rename_i hlt
      right; right
      refine ⟨hg', by simpa using hlt, ?_⟩
      simp only [completionTick] at h
      split at h
      · rename_i i rest hdec
        obtain ⟨e, operand, length, advances, he⟩ := exec_decoded _ _ _ _ (State.fetchOperand _ _).2 hdec
        rw [he, State.fetchOperand_eq] at h
        exact ⟨e, operand, length, advances, _, _, (Host.Outcome.next.inj h).symm⟩
      · cases h

/-- A table within the contract gives every `cycle` call a next state (40 R84). -/
theorem cycle_next (s : State) (h : s.tableOk = true) : ∃ t, cycle s = .next t := by
  unfold cycle
  split
  · exact ⟨_, rfl⟩
  · simp only [State.fetchOpcode_eq]
    split
    · exact ⟨_, rfl⟩
    · obtain ⟨i, rest, -, hc⟩ := completionTick_next (s.busValue s.pc)
        { s with
          elapsedCycles := s.elapsedCycles + 1
          fresh := if s.kindAt s.pc = .device then s.fresh + 1 else s.fresh
          ports := s.ports ++ [.busRead s.pc (s.busValue s.pc), .lookup (s.busValue s.pc)] }
        ((Table.ok_iff _ _).mp h _)
      rw [hc]
      rcases exec_cases i _ with ⟨e, o, l, a, he⟩ | ⟨k, -, he⟩
      · exact ⟨_, he⟩
      · exact ⟨_, he⟩

/-! ### `handleInterrupts` -/

theorem dispatch_eq (rf em : Byte) (s : State) :
    dispatch rf em s = .next (takeInterrupt ((scan s.cfg.vec (pendingEnabled rf em)).map (·.1)) s) := by
  unfold dispatch decodeInterrupt
  cases scan s.cfg.vec (pendingEnabled rf em) with
  | none => rfl
  | some r => exact exec_intOf r.1 s

/-- Everything a `handleInterrupts` call does (60 R113): the gate, the guard, the dispatch. It never stops. -/
theorem handleInterrupts_eq (s : State) :
    handleInterrupts s = .next (
      if s.ime = false then s
      else if guardPasses s.cfg.irqGuard s.requestedFlags s.enabledMask = false then s.sampled
      else takeInterrupt ((scan s.cfg.vec (pendingEnabled s.requestedFlags s.enabledMask)).map (·.1)) s.sampled) := by
  have hs : (s.readIF.2.readIE).2 = s.sampled := by
    simp [State.readIF, State.readIE, State.log, State.setPorts, State.sampled]
  unfold handleInterrupts
  cases hi : s.ime
  · simp
  · have hr : s.readIF.2.readIE.1 = s.enabledMask := rfl
    have hf : s.readIF.1 = s.requestedFlags := rfl
    simp only [if_true, hr, hf, hs, dispatch_eq]
    cases guardPasses s.cfg.irqGuard s.requestedFlags s.enabledMask
    · simp
    · simp [State.sampled]

/-- Everything a dispatching call does: the dispatch of the winner, or the one that keeps `pc` (60 R119, R126). -/
theorem handleInterrupts_dispatch (s : State) (hi : s.ime = true)
    (hg : guardPasses s.cfg.irqGuard s.requestedFlags s.enabledMask = true) :
    handleInterrupts s = .next (takeInterrupt s.winner s.sampled) := by
  rw [handleInterrupts_eq]
  simp [hi, hg, State.winner]

theorem handleInterrupts_next (s : State) : ∃ t, handleInterrupts s = .next t :=
  ⟨_, handleInterrupts_eq s⟩

section
variable (s t : State) (h : handleInterrupts s = .next t)
include h

/-- The three kinds of `handleInterrupts` call (60 R113). -/
theorem handleInterrupts_cases :
    (s.ime = false ∧ t = s) ∨
    (s.ime = true ∧ guardPasses s.cfg.irqGuard s.requestedFlags s.enabledMask = false ∧ t = s.sampled) ∨
    (s.ime = true ∧ guardPasses s.cfg.irqGuard s.requestedFlags s.enabledMask = true ∧
      ∃ w, t = takeInterrupt w s.sampled) := by
  rw [handleInterrupts_eq] at h
  have h := (Host.Outcome.next.inj h).symm
  split at h
  · rename_i hi
    exact .inl ⟨hi, h⟩
  · rename_i hi
    have hi : s.ime = true := by simpa using hi
    split at h
    · rename_i hg
      exact .inr (.inl ⟨hi, hg, h⟩)
    · rename_i hg
      exact .inr (.inr ⟨hi, by simpa using hg, _, h⟩)

theorem handleInterrupts_cfg : t.cfg = s.cfg := by
  rcases handleInterrupts_cases s t h with ⟨-, rfl⟩ | ⟨-, -, rfl⟩ | ⟨-, -, w, rfl⟩ <;> simp [State.sampled]

theorem handleInterrupts_inputs : t.inputs = s.inputs := by
  rcases handleInterrupts_cases s t h with ⟨-, rfl⟩ | ⟨-, -, rfl⟩ | ⟨-, -, w, rfl⟩ <;> simp [State.sampled]

theorem handleInterrupts_memWf (hm : s.memWf = true) : t.memWf = true := by
  rcases handleInterrupts_cases s t h with ⟨-, rfl⟩ | ⟨-, -, rfl⟩ | ⟨-, -, w, rfl⟩
  · exact hm
  · exact hm
  · exact takeInterrupt_memWf w _ hm
end

section
variable (s t : State) (h : cycle s = .next t)
include h

theorem cycle_cfg : t.cfg = s.cfg := by
  rcases cycle_cases s t h with ⟨-, rfl⟩ | ⟨-, -, rfl⟩ | ⟨-, -, e, o, l, a, f, p, rfl⟩ <;>
    simp [State.fetchOpcode_eq]

theorem cycle_inputs : t.inputs = s.inputs := by
  rcases cycle_cases s t h with ⟨-, rfl⟩ | ⟨-, -, rfl⟩ | ⟨-, -, e, o, l, a, f, p, rfl⟩ <;>
    simp [State.fetchOpcode_eq]

theorem cycle_memWf (hm : s.memWf = true) : t.memWf = true := by
  rcases cycle_cases s t h with ⟨-, rfl⟩ | ⟨-, -, rfl⟩ | ⟨-, -, e, o, l, a, f, p, rfl⟩
  · exact hm
  · rw [State.fetchOpcode_eq]; exact hm
  · exact completeInstr_memWf _ _ _ _ _ hm
end

/-! ### The step -/

/-- A step is the reset input, or a tick with the environment at its three boundaries (40 R65, 20 R48, 70 R150). -/
theorem step_cases (s t : State) (h : step s = .next t) :
    (∃ rest, s.inputs = .reset :: rest ∧ t = ((s.setInputs rest).setPorts []).powerOn) ∨
    (s.tableOk = true ∧ ∃ before between after rest c d,
      (s.inputs = .clock before between after :: rest ∨
        (s.inputs = [] ∧ before = [] ∧ between = [] ∧ after = [] ∧ rest = [])) ∧
      cycle (State.environment { s with inputs := rest, ports := [] } before) = .next c ∧
      handleInterrupts (c.environment between) = .next d ∧ t = d.environment after) := by
  have hclock : ∀ b m a u, clockTick b m a u = .next t → u.cfg.itab.ok u.cfg.dmax = true ∧
      ∃ c d, cycle (State.environment { u with ports := [] } b) = .next c ∧
        handleInterrupts (c.environment m) = .next d ∧ t = d.environment a := by
    intro b m a u hu
    unfold clockTick at hu
    split at hu
    · rename_i hok
      refine ⟨hok, ?_⟩
      simp only [tick] at hu
      cases hc : cycle (State.environment (u.setPorts []) b) with
      | next c =>
        obtain ⟨d, hd⟩ := handleInterrupts_next (c.environment m)
        rw [hc] at hu
        simp only [andThen, hd, Host.Outcome.next.injEq] at hu
        exact ⟨c, d, hc, hd, hu.symm⟩
      | fault r => rw [hc] at hu; simp [andThen] at hu
      | refused r => rw [hc] at hu; simp [andThen] at hu
    · cases hu
  unfold step nextInput at h
  split at h
  · rename_i hi
    obtain ⟨hok, c, d, hc, hd, ht⟩ := hclock _ _ _ _ h
    refine .inr ⟨hok, [], [], [], [], c, d, .inr ⟨hi, rfl, rfl, rfl, rfl⟩, ?_, hd, ht⟩
    rw [← hc, ← hi]
  · rename_i i rest hi
    cases i with
    | clock b m a =>
      obtain ⟨hok, c, d, hc, hd, ht⟩ := hclock _ _ _ _ h
      exact .inr ⟨hok, b, m, a, rest, c, d, .inl hi, hc, hd, ht⟩
    | reset => exact .inl ⟨rest, hi, (Host.Outcome.next.inj h).symm⟩

/-! ### Runs -/

@[simp] theorem core_run_zero (s : State) : core.run 0 s = .next s := rfl

theorem core_run_succ (n : Nat) (s : State) : core.run (n + 1) s = andThen (step s) (core.run n) := by
  refine (Host.Core.run.eq_2 core s n).trans ?_
  have hs : core.step s = step s := rfl
  rw [hs]
  cases step s <;> rfl
/-- A run of one more step ends with that step. -/
theorem core_run_last (n : Nat) (s : State) : core.run (n + 1) s = andThen (core.run n s) step := by
  induction n generalizing s with
  | zero =>
    rw [core_run_succ]
    show andThen (step s) (core.run 0) = step s
    cases step s <;> rfl
  | succ n ih =>
    rw [core_run_succ, core_run_succ n s]
    cases step s with
    | next t => exact ih t
    | fault r => rfl
    | refused r => rfl

end Sys2Proof.Machine
end

