-- ==== Sys2Proof/Tests/Slice0.lean ====
section
/-! SUPPORT. The model's own tests: ill-formed terms, decoded words written out from the spec's encodings, single steps with
the values of 95_test_vectors.md and of the rules' worked examples, and a witness for every statement with hypotheses. -/

namespace Sys2Proof.Tests

open Sys2Proof Sys2Proof.Machine

/-! ### Helpers -/

/-- The fixture environment: a flat 64 KiB RAM (95 section 4). -/
def flat : State := { State.reset with busMap := [] }

/-- The bytes `bs` in memory from `a` on. -/
def place (s : State) (a : Word) : List Byte → State
  | [] => s
  | b :: bs => place { s with mem := Memory.write s.mem a.toNat b } (a + 1) bs

/-- The flat machine at `pc`, with these bytes there and this count. -/
def program (pc : Word) (count : Nat) (bs : List Byte) : State :=
  { place flat pc bs with pc := pc, elapsedCycles := count }

/-- `s` under a table that binds every opcode to `d`. -/
def under (d : Descriptor) (s : State) : State := { s with cfg := { s.cfg with itab := ⟨[], d⟩ } }

/-- The outcome is a next state of which `p` holds. -/
def ends (o : Host.Outcome State Fault Refusal) (p : State → Bool) : Bool :=
  match o with
  | .next t => p t
  | .fault _ => false
  | .refused _ => false

/-- A table that binds no opcode as FT does: every opcode of length 1, 2 or 3. -/
def classTable (length : Nat) : Table := ⟨[], ⟨length, 2, .external 0, true, ""⟩⟩

/-! ### WellFormed: each check refuses an ill-formed term -/

theorem test_wf_class_of_another_length :
    Instr.wellFormed (classTable 2) (.opL1 0x5A#8) = false ∧ Instr.wellFormed (classTable 1) (.opL2 0x5A#8 0#8) = false ∧
    Instr.wellFormed (classTable 2) (.opL3 0x5A#8 0#8 0#8) = false := by decide

theorem test_wf_class_that_is_a_fixture_row :
    Instr.wellFormed fixtureTable (.opL1 0x3C#8) = false ∧ Instr.wellFormed fixtureTable (.opL2 0x3E#8 0#8) = false ∧
    Instr.wellFormed fixtureTable (.opL3 0xC3#8 0#8 0#8) = false := by decide

theorem test_wf_fixture_data_in_another_table :
    Instr.wellFormed (classTable 1) .nop = false ∧ Instr.wellFormed (classTable 3) (.ldSpD16 0#16) = false ∧
    Instr.wellFormed (classTable 1) .incA = false ∧ Instr.wellFormed (classTable 2) (.ldAD8 0#8) = false ∧
    Instr.wellFormed (classTable 3) (.ldA16A 0#16) = false ∧ Instr.wellFormed (classTable 3) (.ldAA16 0#16) = false := by
  decide

theorem test_wf_fixture_control_in_another_table :
    Instr.wellFormed (classTable 2) (.jrE8 0#8) = false ∧ Instr.wellFormed (classTable 3) (.jpA16 0#16) = false ∧
    Instr.wellFormed (classTable 1) .halt = false ∧ Instr.wellFormed (classTable 1) .reti = false ∧
    Instr.wellFormed (classTable 1) .di = false ∧ Instr.wellFormed (classTable 1) .ei = false ∧
    Instr.wellFormed (classTable 1) (.ill 0xDD#8) = false := by decide

theorem test_wf_ill_of_a_named_opcode : Instr.wellFormed fixtureTable (.ill 0x3C#8) = false := by decide

theorem test_wf_accepts :
    Instr.wellFormed (classTable 2) (.opL2 0x3E#8 0xFF#8) = true ∧ Instr.wellFormed fixtureTable (.ill 0xDD#8) = true ∧
    Instr.wellFormed fixtureTable (.jpA16 0x0150#16) = true ∧ Instr.wellFormed (classTable 1) .int4 = true := by decide

/-! ### Decoding: words written out from 30 R51-R53 and the codes of 95 section 4 -/

/-- 95 section 4, one-byte rows. -/
theorem test_decode_fixture_l1 :
    decode fixtureTable [0b00000000#8] = .ok (.nop, []) ∧ decode fixtureTable [0b00111100#8] = .ok (.incA, []) ∧
    decode fixtureTable [0b01110110#8] = .ok (.halt, []) ∧ decode fixtureTable [0b11011001#8] = .ok (.reti, []) ∧
    decode fixtureTable [0b11110011#8] = .ok (.di, []) ∧ decode fixtureTable [0b11111011#8] = .ok (.ei, []) ∧
    decode fixtureTable [0b11011101#8] = .ok (.ill 0xDD#8, []) := by decide

/-- 95 section 4, two- and three-byte rows, bytes of programs P1 and P4. -/
theorem test_decode_fixture_l2_l3 :
    decode fixtureTable [0b00011000#8, 0b11111110#8] = .ok (.jrE8 0xFE#8, []) ∧
    decode fixtureTable [0b00111110#8, 0b00000101#8] = .ok (.ldAD8 0x05#8, []) ∧
    decode fixtureTable [0b00110001#8, 0xFE#8, 0xFF#8] = .ok (.ldSpD16 0xFFFE#16, []) ∧
    decode fixtureTable [0b11000011#8, 0x09#8, 0x00#8] = .ok (.jpA16 0x0009#16, []) ∧
    decode fixtureTable [0b11101010#8, 0x00#8, 0xC0#8] = .ok (.ldA16A 0xC000#16, []) ∧
    decode fixtureTable [0b11111010#8, 0x10#8, 0x01#8] = .ok (.ldAA16 0x0110#16, []) := by decide

/-- 30 R51-R54: the length is the table's. -/
theorem test_decode_classes :
    decode (classTable 1) [0x3C#8, 0x01#8] = .ok (.opL1 0x3C#8, [0x01#8]) ∧
    decode (classTable 2) [0x3E#8, 0xFF#8] = .ok (.opL2 0x3E#8 0xFF#8, []) ∧
    decode (classTable 3) [0xC3#8, 0x50#8, 0x01#8] = .ok (.opL3 0xC3#8 0x50#8 0x01#8, []) := by decide

/-- 41 R106 and bytes that end early: refused by name. -/
theorem test_decode_rejects :
    decode (classTable 4) [0#8, 0#8, 0#8, 0#8] = .error .lengthOutsideContract ∧
    decode (classTable 0) [0#8] = .error .lengthOutsideContract ∧ decode (classTable 3) [0#8, 0#8] = .error .operandMissing ∧
    decode (classTable 2) [0#8] = .error .operandMissing ∧ decode (classTable 1) [] = .error .noOpcode := by decide

/-- 60 R121-R125, the examples' patterns of requested and enabled bits; 95 section 3, the winners of `p`. -/
theorem test_decode_dispatches :
    decodeInterrupt defaultVectors (pendingEnabled 0b00011#8 0b00011#8) = some .int0 ∧
    decodeInterrupt defaultVectors (pendingEnabled 0b00011#8 0b00010#8) = some .int1 ∧
    decodeInterrupt defaultVectors (pendingEnabled 0b10100#8 0b11111#8) = some .int2 ∧
    decodeInterrupt defaultVectors (pendingEnabled 0b01000#8 0b01000#8) = some .int3 ∧
    decodeInterrupt defaultVectors (pendingEnabled 0b11111#8 0b10000#8) = some .int4 ∧
    decodeInterrupt defaultVectors (pendingEnabled 0xE0#8 0xE0#8) = none := by decide

/-- The words of spec/opcode_table.json, as `decodeTableWord` numbers them. -/
theorem test_decode_table_words :
    decodeTableWord 16 0xFF3E = some (.ldAD8 0xFF#8) ∧ decodeTableWord 24 0x0150C3 = some (.jpA16 0x0150#16) ∧
    decodeTableWord 8 0xEA = some (.ldA16A 0x0000#16) ∧ decodeTableWord 16 0x0000 = some (.opL2 0#8 0#8) ∧
    decodeTableWord 24 0x000000 = some (.opL3 0#8 0#8 0#8) ∧ decodeTableWord 8 0x08 = some .int3 ∧
    decodeTableWord 8 0xDD = some (.ill 0xDD#8) := by decide

/-- The next step runs the placed word as the first instruction after reset. -/
theorem test_with_fetch_word :
    ends (step (State.reset.withFetchWord 8 0x3C)) (fun t => t.pc == 1#16 && t.regAValue == 1#8) = true ∧
    ends (step (State.reset.withFetchWord 24 0x0150C3)) (fun t => t.pc == 0x0150#16) = true ∧
    ends (step (State.reset.withFetchWord 24 0)) (fun t => t.pc == 3#16) = true ∧
    ends (step (State.reset.withFetchWord 8 0x02)) (fun t => t.pc == 0x0048#16 && t.sp == 0xFFFE#16) = true := by decide

/-! ### The fixture instructions: the completion tick of each, with the values of programs P1 to P4 -/

/-- P1, tick 12. -/
theorem test_ldSpD16 :
    ends (step (program 0x0000#16 11 [0x31#8, 0xFE#8, 0xFF#8]))
      (fun t => t.pc == 0x0003#16 && t.sp == 0xFFFE#16 && t.elapsedCycles == 0) = true := by decide

/-- P1, tick 20. -/
theorem test_ldAD8 :
    ends (step (program 0x0003#16 7 [0x3E#8, 0x05#8])) (fun t => t.pc == 0x0005#16 && t.regAValue == 0x05#8) = true := by
  decide

/-- P4, tick 20, and the wrap of 95 section 4. -/
theorem test_incA :
    ends (step { program 0x0103#16 3 [0x3C#8] with regs := ⟨[0x7F#8], []⟩ })
      (fun t => t.pc == 0x0104#16 && t.regAValue == 0x80#8) = true ∧
    ends (step { program 0x0103#16 3 [0x3C#8] with regs := ⟨[0xFF#8], []⟩ }) (fun t => t.regAValue == 0x00#8) = true := by
  decide

/-- P1, tick 40. -/
theorem test_ldA16A :
    ends (step { program 0x0006#16 15 [0xEA#8, 0x00#8, 0xC0#8] with regs := ⟨[0x06#8], []⟩ })
      (fun t => t.pc == 0x0009#16 && t.byteAt 0xC000#16 == 0x06#8) = true := by decide

/-- P4, tick 16. -/
theorem test_ldAA16 :
    ends (step (place (program 0x0100#16 15 [0xFA#8, 0x10#8, 0x01#8]) 0x0110#16 [0x7F#8]))
      (fun t => t.pc == 0x0103#16 && t.regAValue == 0x7F#8) = true := by decide

/-- P1, tick 56. -/
theorem test_jpA16 :
    ends (step (program 0x0009#16 15 [0xC3#8, 0x09#8, 0x00#8])) (fun t => t.pc == 0x0009#16 && t.elapsedCycles == 0) = true := by
  decide

/-- P4, tick 48: the jump to itself. -/
theorem test_jrE8 :
    ends (step (program 0x0107#16 11 [0x18#8, 0xFE#8])) (fun t => t.pc == 0x0107#16 && t.elapsedCycles == 0) = true := by decide

/-- P2, tick 36. -/
theorem test_reti :
    ends (step { place (program 0x0041#16 15 [0xD9#8]) 0xCFFE#16 [0x04#8, 0x00#8] with sp := 0xCFFE#16 })
      (fun t => t.pc == 0x0004#16 && t.sp == 0xD000#16 && t.ime && t.elapsedCycles == 0) = true := by decide

/-- P2, tick 16; P3, tick 20; 95 section 4 for DI. -/
theorem test_ei_halt_di :
    ends (step (program 0x0003#16 3 [0xFB#8])) (fun t => t.pc == 0x0004#16 && t.ime) = true ∧
    ends (step (program 0x0004#16 3 [0x76#8])) (fun t => t.pc == 0x0005#16 && t.halted) = true ∧
    ends (step { program 0x0004#16 3 [0xF3#8] with ime := true }) (fun t => t.pc == 0x0005#16 && !t.ime) = true := by decide

/-- V1 and V14 for NOP, V7 for ILL. -/
theorem test_nop_ill :
    ends (step (program 0x0100#16 3 [0x00#8])) (fun t => t.pc == 0x0101#16 && t.elapsedCycles == 0) = true ∧
    ends (step (program 0xFFFF#16 3 [0x00#8])) (fun t => t.pc == 0x0000#16) = true ∧
    ends (step (program 0x0100#16 3 [0xDD#8])) (fun t => t.pc == 0x0100#16 && t.elapsedCycles == 0) = true := by decide

/-! ### The format classes and `cycle`: the vectors of 95 section 2 -/

/-- V1, tick 1: in flight, one read. -/
theorem test_in_flight :
    ends (cycle (program 0x0100#16 0 [0x00#8]))
      (fun t => t.pc == 0x0100#16 && t.elapsedCycles == 1 && t.ports == [.busRead 0x0100#16 0#8, .lookup 0#8]) = true := by decide

/-- V2: `duration = 1` completes on the first tick. -/
theorem test_opL1_v2 :
    ends (cycle (under ⟨1, 1, .nothing, true, ""⟩ (program 0x0100#16 0 [0x5A#8])))
      (fun t => t.pc == 0x0101#16 && t.elapsedCycles == 0) = true := by decide

/-- V13, tick 255: the largest duration. -/
theorem test_opL1_v13 :
    ends (cycle (under ⟨1, 255, .nothing, true, ""⟩ (program 0x0100#16 254 [0x5A#8])))
      (fun t => t.pc == 0x0101#16 && t.elapsedCycles == 0) = true := by decide

/-- V3: the operand is zero-extended. -/
theorem test_opL2_v3 :
    ends (cycle (under ⟨2, 8, .loadImmediateA, true, ""⟩ (program 0x0200#16 7 [0x5A#8, 0xFF#8])))
      (fun t => t.pc == 0x0202#16 && t.regAValue == 0xFF#8 && t.elapsedCycles == 0 &&
        t.ports == [.busRead 0x0200#16 0x5A#8, .lookup 0x5A#8, .busRead 0x0201#16 0xFF#8, .effect 0x00FF#16]) = true := by decide

/-- V15, tick 2: the operand byte is the one there on the completion tick. -/
theorem test_opL2_v15 :
    ends (tick [.poke 0x0101#16 0x22#8] [] [] (under ⟨2, 2, .loadImmediateA, true, ""⟩ (program 0x0100#16 1 [0x5A#8, 0x11#8])))
      (fun t => t.regAValue == 0x22#8 && t.pc == 0x0102#16) = true := by decide

/-- V4: the three reads wrap, in order. -/
theorem test_opL3_v4 :
    ends (cycle (under ⟨3, 2, .nothing, true, ""⟩ (program 0xFFFE#16 1 [0x5A#8, 0xCD#8, 0xAB#8])))
      (fun t => t.pc == 0x0001#16 && t.elapsedCycles == 0 &&
        t.ports == [.busRead 0xFFFE#16 0x5A#8, .lookup 0x5A#8, .busRead 0xFFFF#16 0xCD#8, .busRead 0x0000#16 0xAB#8,
          .effect 0xABCD#16]) = true := by decide

/-- V6: flag true and an effect that jumps. -/
theorem test_opL3_v6 :
    ends (cycle (under ⟨3, 16, .jump, true, ""⟩ (program 0x0100#16 15 [0x5A#8, 0x00#8, 0x20#8])))
      (fun t => t.pc == 0x2003#16 && t.elapsedCycles == 0) = true := by decide

/-- V8 and V9, tick 6: the count carried over, larger and smaller than the new duration. -/
theorem test_carry_over :
    ends (cycle (program 0x0040#16 10 [0x3C#8])) (fun t => t.pc == 0x0041#16 && t.elapsedCycles == 0) = true ∧
    ends (cycle (under ⟨2, 8, .nothing, true, ""⟩ (program 0x0040#16 7 [0x5A#8])))
      (fun t => t.pc == 0x0042#16 && t.elapsedCycles == 0) = true := by decide

/-- V12: `halted` with and without the gate. -/
theorem test_halt_gate :
    ends (cycle { program 0x0100#16 0 [0x00#8] with halted := true }) (fun t => t.elapsedCycles == 1 && t.halted) = true ∧
    ends (cycle { program 0x0100#16 0 [0x00#8] with
        halted := true, cfg := { defaultParams with haltGatesCycle := true } })
      (fun t => t.elapsedCycles == 0 && t.ports == []) = true := by decide

/-! ### The dispatches and `handleInterrupts`: the vectors of 95 section 3 -/

/-- The start state of section 3. -/
def pending (rf em : Byte) : State :=
  { flat with pc := 0x0150#16, sp := 0xD000#16, ime := true, requestedFlags := rf, enabledMask := em }

/-- The push of H6. -/
def pushedAsH6 (t : State) : Bool :=
  t.byteAt 0xCFFF#16 == 0x01#8 && t.byteAt 0xCFFE#16 == 0x50#8 && t.sp == 0xCFFE#16 && !t.ime

/-- The non-default acknowledge policy. -/
def serviced (s : State) : State := { s with cfg := { s.cfg with ackPolicy := .clearServiced } }

/-- The non-default guard. -/
def literal (s : State) : State := { s with cfg := { s.cfg with irqGuard := .eachNonzero } }

/-- H1 to H3. -/
theorem test_gate_and_guard :
    handleInterrupts { pending 0x1F#8 0x1F#8 with ime := false } = .next { pending 0x1F#8 0x1F#8 with ime := false } ∧
    handleInterrupts (pending 0x00#8 0x1F#8) = .next { pending 0x00#8 0x1F#8 with ports := [.readIF 0x00#8, .readIE 0x1F#8] } ∧
    handleInterrupts (pending 0x1F#8 0x00#8) = .next { pending 0x1F#8 0x00#8 with ports := [.readIF 0x1F#8, .readIE 0x00#8] } := by
  exact ⟨rfl, rfl, rfl⟩

/-- H4 and H5, default guard and literal guard. -/
theorem test_disjoint_registers :
    ends (handleInterrupts (pending 0x01#8 0x02#8)) (fun t => t.pc == 0x0150#16 && t.ime && t.sp == 0xD000#16) = true ∧
    ends (handleInterrupts (literal (pending 0x01#8 0x02#8)))
      (fun t => pushedAsH6 t && t.pc == 0x0150#16 && t.requestedFlags == 0x00#8) = true ∧
    ends (handleInterrupts (serviced (literal (pending 0xE0#8 0xE0#8))))
      (fun t => pushedAsH6 t && t.pc == 0x0150#16 && t.requestedFlags == 0xE0#8) = true := by decide

/-- H6. -/
theorem test_int0 :
    ends (handleInterrupts (pending 0b00011#8 0b00011#8))
      (fun t => pushedAsH6 t && t.pc == 0x0040#16 && t.requestedFlags == 0x00#8) = true ∧
    ends (handleInterrupts (serviced (pending 0b00011#8 0b00011#8)))
      (fun t => pushedAsH6 t && t.pc == 0x0040#16 && t.requestedFlags == 0b00010#8) = true := by decide

/-- 60 R122, example. -/
theorem test_int1 :
    ends (handleInterrupts (pending 0b00011#8 0b00010#8))
      (fun t => pushedAsH6 t && t.pc == 0x0048#16 && t.requestedFlags == 0x00#8) = true ∧
    ends (handleInterrupts (serviced (pending 0b00011#8 0b00010#8))) (fun t => t.requestedFlags == 0b00001#8) = true := by decide

/-- H8. -/
theorem test_int2 :
    ends (handleInterrupts (pending 0b11111#8 0b10100#8))
      (fun t => pushedAsH6 t && t.pc == 0x0050#16 && t.requestedFlags == 0x00#8) = true ∧
    ends (handleInterrupts (serviced (pending 0b11111#8 0b10100#8))) (fun t => t.requestedFlags == 0b11011#8) = true := by decide

/-- H7.3. -/
theorem test_int3 :
    ends (handleInterrupts (pending 0x08#8 0x08#8))
      (fun t => pushedAsH6 t && t.pc == 0x0058#16 && t.requestedFlags == 0x00#8) = true := by decide

/-- H15. -/
theorem test_int4 :
    ends (handleInterrupts (pending 0xFF#8 0x10#8))
      (fun t => pushedAsH6 t && t.pc == 0x0060#16 && t.requestedFlags == 0x00#8) = true ∧
    ends (handleInterrupts (serviced (pending 0xFF#8 0x10#8))) (fun t => t.requestedFlags == 0xEF#8) = true := by decide

/-- H9 and H10: `sp` wraps. -/
theorem test_push_wraps :
    ends (handleInterrupts { pending 0x01#8 0x01#8 with pc := 0xABCD#16, sp := 0x0000#16 })
      (fun t => t.sp == 0xFFFE#16 && t.byteAt 0xFFFF#16 == 0xAB#8 && t.byteAt 0xFFFE#16 == 0xCD#8) = true ∧
    ends (handleInterrupts { pending 0x01#8 0x01#8 with pc := 0xABCD#16, sp := 0x0001#16 })
      (fun t => t.sp == 0xFFFF#16 && t.byteAt 0x0000#16 == 0xAB#8 && t.byteAt 0xFFFF#16 == 0xCD#8) = true := by decide

/-- S5, in the layout of conflict C1's winner. -/
theorem test_push_layout :
    ends (handleInterrupts { pending 0x01#8 0x01#8 with pc := 0x1234#16, sp := 0x8000#16 })
      (fun t => t.byteAt 0x7FFF#16 == 0x12#8 && t.byteAt 0x7FFE#16 == 0x34#8 && t.sp == 0x7FFE#16) = true := by decide

/-- H11, H11b and H12. -/
theorem test_wake_and_count :
    ends (handleInterrupts { pending 0x04#8 0x04#8 with halted := true }) (fun t => !t.halted && t.pc == 0x0050#16) = true ∧
    ends (handleInterrupts { pending 0x04#8 0x04#8 with halted := true, ime := false }) (fun t => t.halted) = true ∧
    ends (handleInterrupts { pending 0x01#8 0x01#8 with elapsedCycles := 3 })
      (fun t => t.elapsedCycles == 3 && t.pc == 0x0040#16) = true := by decide

/-- H13: the push overwrites the handler. -/
theorem test_push_over_handler :
    ends (andThen (handleInterrupts { pending 0x01#8 0x01#8 with pc := 0x1234#16, sp := 0x0042#16 }) cycle)
      (fun t => t.pc == 0x0040#16 && t.sp == 0x0040#16 && t.ports.getLast? == some (.lookup 0x34#8)) = true := by decide

/-- P2, tick 18: a dispatch inside an instruction, the request made between two ticks. -/
theorem test_dispatch_in_flight :
    ends (step { program 0x0004#16 1 [0x00#8] with
        ime := true, sp := 0xD000#16, enabledMask := 0x01#8, inputs := [.clock [.request 0x01#8] [] []] })
      (fun t => t.pc == 0x0040#16 && t.sp == 0xCFFE#16 && !t.ime && t.elapsedCycles == 2 && t.byteAt 0xCFFE#16 == 0x04#8) =
      true := by decide

/-! ### The Bus: every kind of address -/

/-- A map with one region of each kind; the rest is RAM. -/
def mapped : State :=
  { flat with
    busMap := [⟨0x0000, 0x100, .rom⟩, ⟨0x4000, 0x10, .device⟩, ⟨0xFF0F, 1, .intRequest⟩, ⟨0xFFFF, 1, .intEnable⟩]
    regs := ⟨[0x15#8], []⟩ }

/-- 70 R162, 41 R104: read-only memory discards a store, the mapped controller registers take it. -/
theorem test_store_kinds :
    ends (exec (.ldA16A 0x00FF#16) mapped) (fun t => t.byteAt 0x00FF#16 == 0x00#8) = true ∧
    ends (exec (.ldA16A 0x0100#16) mapped) (fun t => t.byteAt 0x0100#16 == 0x15#8) = true ∧
    ends (exec (.ldA16A 0x4000#16) mapped) (fun t => t.mem == []) = true ∧
    ends (exec (.ldA16A 0xFF0F#16) mapped) (fun t => t.requestedFlags == 0x15#8 && t.enabledMask == 0x00#8) = true ∧
    ends (exec (.ldA16A 0xFFFF#16) mapped) (fun t => t.enabledMask == 0x15#8 && t.requestedFlags == 0x00#8) = true := by decide

/-- A device's answer is the free value, and each read uses up one. -/
theorem test_load_device :
    exec (.ldAA16 0x4000#16) mapped =
      .next { mapped with
        regs := ⟨[Config.deviceRead 0 0x4000#16], []⟩, pc := 0x0003#16, fresh := 1
        ports := [.effect 0x4000#16, .busRead 0x4000#16 (Config.deviceRead 0 0x4000#16)] } := by rfl

/-- The completion tick of a `JP` whose opcode is the last byte before a device and whose operand the device answers. -/
def jumpIntoDevice : State := { place mapped 0x3FFF#16 [0xC3#8] with pc := 0x3FFF#16, elapsedCycles := 15 }

/-- 20 R31, 30 R57: the operand is what the Bus answers, low byte first, each read a free value of its own. -/
theorem test_operand_from_device :
    cycle jumpIntoDevice = .next { jumpIntoDevice with
      pc := concat (Config.deviceRead 1 0x4001#16) (Config.deviceRead 0 0x4000#16), elapsedCycles := 0, fresh := 2
      ports := [.busRead 0x3FFF#16 0xC3#8, .lookup 0xC3#8, .busRead 0x4000#16 (Config.deviceRead 0 0x4000#16),
        .busRead 0x4001#16 (Config.deviceRead 1 0x4001#16),
        .effect (concat (Config.deviceRead 1 0x4001#16) (Config.deviceRead 0 0x4000#16))] } := by rfl

/-- 70 R162: with `sp` at 0x0000 and the enable mask mapped at 0xFFFF an early dispatch overwrites it with `pc[15:8]`. -/
theorem test_push_over_enable_mask :
    ends (handleInterrupts { mapped with pc := 0xABCD#16, ime := true, requestedFlags := 0x01#8, enabledMask := 0x01#8 })
      (fun t => t.enabledMask == 0xAB#8 && t.byteAt 0xFFFE#16 == 0xCD#8 && t.pc == 0x0040#16) = true := by decide

/-- An access that an external effect makes is the effect's own: nothing about it can be evaluated. -/
theorem test_external_effect (s : State) (h : s.cfg.itab = classTable 1) :
    exec (.opL1 0x5A#8) s = .next (completeInstr (Config.effect 0 0x0000#16) 0x0000#16 1 true s) := by
  simp only [exec, execOpL1, h]
  rfl

/-! ### Witnesses: for every statement with hypotheses, states and operands that meet them all -/

theorem witness_ResetInputRecreatesCpuState :
    { pending 0x1F#8 0x1F#8 with inputs := [.reset, .clock [] [] []] }.inputs = .reset :: [.clock [] [] []] := by rfl

theorem witness_FirstFetchIsAtZero : mapped.tableOk = true ∧ mapped.inputs = [] := by decide

theorem witness_DecodeOfEncode :
    (Instr.wellFormed fixtureTable (.jpA16 0xFFFF#16) = true ∧ encode (.jpA16 0xFFFF#16) = some [0xC3#8, 0xFF#8, 0xFF#8]) ∧
    (Instr.wellFormed (classTable 2) (.opL2 0xFF#8 0x80#8) = true ∧ encode (.opL2 0xFF#8 0x80#8) = some [0xFF#8, 0x80#8]) := by
  decide

theorem witness_EncodeOfDecode :
    decode (classTable 3) [0xFF#8, 0x01#8, 0x02#8, 0x03#8] = .ok (.opL3 0xFF#8 0x01#8 0x02#8, [0x03#8]) := by decide

theorem witness_DecodeIsTotal : fixtureTable.ok 255 = true ∧ (classTable 3).ok 2 = true := by decide

/-- Every winner of the scan, and no winner. -/
theorem witness_PrioritySelection :
    decodeInterrupt defaultVectors (pendingEnabled 0x01#8 0x01#8) = some .int0 ∧
    decodeInterrupt defaultVectors (pendingEnabled 0xFE#8 0xFF#8) = some .int1 ∧
    decodeInterrupt defaultVectors (pendingEnabled 0xFC#8 0xFF#8) = some .int2 ∧
    decodeInterrupt defaultVectors (pendingEnabled 0xF8#8 0xFF#8) = some .int3 ∧
    decodeInterrupt defaultVectors (pendingEnabled 0xF0#8 0xFF#8) = some .int4 ∧
    decodeInterrupt defaultVectors (pendingEnabled 0xE0#8 0xFF#8) = none := by decide

/-- An effect that writes, on a halted core, with each of the three clauses' premises met by some address. -/
theorem witness_EffectsKeepWhatTheyMayNotTouch :
    { mapped with halted := true }.halted = true ∧
    (runEffect (storeAEffect 0x8000#16) mapped).ports = mapped.ports ++ [.busWrite 0x8000#16 0x15#8] ∧
    mapped.kindAt 0x8000#16 ≠ .intRequest ∧ mapped.kindAt 0x8000#16 ≠ .intEnable ∧ mapped.kindAt 0xFF0F#16 = .intRequest ∧
    mapped.kindAt 0xFFFF#16 = .intEnable := by decide

theorem witness_ReturnUndoesCall : { mapped with sp := 0xD000#16 }.stackInRam = true := by decide

theorem witness_RegisterInstructionsComplete : mapped.hasA = true ∧ { mapped with regs := ⟨[], []⟩ }.hasA = false := by decide

/-- The four outcomes of a store, at the regions' edges. -/
theorem witness_StoreACompletes :
    mapped.ramAt 0x0100#16 = true ∧ mapped.kindAt 0x00FF#16 = .rom ∧ mapped.kindAt 0x400F#16 = .device ∧
    mapped.ramAt 0x4010#16 = true ∧ mapped.kindAt 0xFF0F#16 = .intRequest ∧ mapped.ramAt 0xFF10#16 = true ∧
    mapped.kindAt 0xFFFF#16 = .intEnable := by decide

theorem witness_LoadACompletes :
    mapped.hasA = true ∧ mapped.plainAt 0x00FF#16 = true ∧ mapped.plainAt 0x4000#16 = false := by decide

theorem witness_RetiCompletes :
    { mapped with sp := 0xFFFF#16 }.plainAt 0x0000#16 = true ∧
    ({ mapped with sp := 0x00FF#16 }.plainAt 0x00FF#16 = true ∧ { mapped with sp := 0x00FF#16 }.plainAt 0x0100#16 = true) := by
  decide

theorem witness_FixtureInstructionsAreTheirClass :
    Instr.wellFormed mapped.cfg.itab .reti = true ∧ encode .reti = some [0xD9#8] ∧ classOf .reti = .opL1 0xD9#8 := by decide

/-- A stack in RAM, under each acknowledge policy. -/
theorem witness_DispatchesComplete :
    (pending 0x1F#8 0x1F#8).stackInRam = true ∧ (pending 0x1F#8 0x1F#8).cfg.ackPolicy = .clearAll ∧
    (serviced (pending 0x1F#8 0x1F#8)).stackInRam = true ∧
    (serviced (pending 0x1F#8 0x1F#8)).cfg.ackPolicy = .clearServiced := by decide

/-- Mixed stacks at the regions' edges: only the high byte lands, only the low byte lands, neither lands, and the high byte goes
to the mapped enable mask; under each acknowledge policy. -/
theorem witness_DispatchesCompleteOnAnyStack :
    ({ mapped with sp := 0x0101#16 }.ramAt 0x0100#16 = true ∧ { mapped with sp := 0x0101#16 }.ramAt 0x00FF#16 = false) ∧
    ({ mapped with sp := 0x4001#16 }.ramAt 0x4000#16 = false ∧ { mapped with sp := 0x4001#16 }.ramAt 0x3FFF#16 = true) ∧
    ({ mapped with sp := 0x0100#16 }.ramAt 0x00FF#16 = false ∧ { mapped with sp := 0x0100#16 }.ramAt 0x00FE#16 = false) ∧
    ({ mapped with sp := 0x0000#16, pc := 0xABCD#16 }.pushedOnto .intEnable 0x1F#8 = 0xAB#8) ∧
    mapped.cfg.ackPolicy = .clearAll ∧ (serviced mapped).cfg.ackPolicy = .clearServiced := by decide

theorem witness_PushWraps :
    { flat with sp := 0x0000#16 }.stackInRam = true ∧ { flat with sp := 0x0001#16 }.stackInRam = true := by decide

theorem witness_RetiUndoesDispatch :
    (pending 0x01#8 0x01#8).stackInRam = true ∧
    exec (intOf .videoBlank) (pending 0x01#8 0x01#8) = .next (takeInterrupt (some .videoBlank) (pending 0x01#8 0x01#8)) := by
  exact ⟨by decide, rfl⟩

/-- Under each policy; under `clear_serviced` with the stack in RAM, in read-only memory and on a device. -/
theorem witness_AcknowledgePolicies :
    ((pending 0x1F#8 0x1F#8).cfg.ackPolicy = .clearAll ∧
      exec (intOf .joypad) (pending 0x1F#8 0x1F#8) = .next (takeInterrupt (some .joypad) (pending 0x1F#8 0x1F#8))) ∧
    ((serviced (pending 0x1F#8 0x1F#8)).cfg.ackPolicy = .clearServiced ∧
      (serviced (pending 0x1F#8 0x1F#8)).pushSpares .intRequest = true ∧
      exec (intOf .joypad) (serviced (pending 0x1F#8 0x1F#8)) =
        .next (takeInterrupt (some .joypad) (serviced (pending 0x1F#8 0x1F#8)))) ∧
    ({ serviced mapped with sp := 0x0100#16 }.pushSpares .intRequest = true ∧
      { serviced mapped with sp := 0x0100#16 }.stackInRam = false) ∧
    ({ serviced mapped with sp := 0x4010#16 }.pushSpares .intRequest = true ∧
      { serviced mapped with sp := 0x4010#16 }.stackInRam = false) := by
  exact ⟨⟨rfl, rfl⟩, ⟨rfl, by decide, rfl⟩, ⟨by decide, by decide⟩, ⟨by decide, by decide⟩⟩

theorem witness_MasterGate : { pending 0x1F#8 0x1F#8 with ime := false }.ime = false := by rfl

/-- One state for each of the four clauses. -/
theorem witness_GuardOfStepTwo :
    ((pending 0x01#8 0x02#8).cfg.irqGuard = .masked ∧ 0x01#8 &&& 0x02#8 &&& 0x1F#8 = 0#8) ∧
    ((pending 0x01#8 0x01#8).cfg.irqGuard = .masked ∧ 0x01#8 &&& 0x01#8 &&& 0x1F#8 ≠ 0#8) ∧
    ((literal (pending 0x01#8 0x00#8)).cfg.irqGuard = .eachNonzero ∧ (literal (pending 0x01#8 0x00#8)).enabledMask = 0#8) ∧
    ((literal (pending 0x20#8 0x40#8)).cfg.irqGuard = .eachNonzero ∧ (literal (pending 0x20#8 0x40#8)).requestedFlags ≠ 0#8 ∧
      (literal (pending 0x20#8 0x40#8)).enabledMask ≠ 0#8) ∧
    (pending 0x01#8 0x02#8).ime = true ∧ (literal (pending 0x20#8 0x40#8)).ime = true := by decide

/-- Source 4 alone enabled among five requests. -/
theorem witness_LeastPendingSourceIsDispatched :
    (pending 0x1F#8 0x10#8).ime = true ∧
    ((pending 0x1F#8 0x10#8).requestedFlags.getLsbD IrqSource.joypad.bit &&
      (pending 0x1F#8 0x10#8).enabledMask.getLsbD IrqSource.joypad.bit) = true ∧
    (∀ j : IrqSource, j.bit < IrqSource.joypad.bit →
      ((pending 0x1F#8 0x10#8).requestedFlags.getLsbD j.bit && (pending 0x1F#8 0x10#8).enabledMask.getLsbD j.bit) = false) := by
  refine ⟨rfl, by decide, ?_⟩
  intro j
  cases j <;> decide

theorem witness_SpuriousDispatchKeepsPc :
    let s := literal (pending 0x01#8 0x02#8)
    s.ime = true ∧ s.cfg.irqGuard = .eachNonzero ∧ s.requestedFlags ≠ 0#8 ∧ s.enabledMask ≠ 0#8 ∧
      s.requestedFlags &&& s.enabledMask &&& 0x1F#8 = 0#8 ∧ s.stackInRam = true ∧ (serviced s).stackInRam = true := by decide

/-- Each clause, and in the dispatching one each of the four pairs of policy and winner: the vectors H1, H4, H6 and H4 under
`each_nonzero`. -/
theorem witness_HandleInterruptsPortOrder :
    ({ pending 0x01#8 0x01#8 with ime := false }.ime = false) ∧
    ((pending 0x01#8 0x02#8).ime = true ∧
      guardPasses (pending 0x01#8 0x02#8).cfg.irqGuard (pending 0x01#8 0x02#8).requestedFlags
        (pending 0x01#8 0x02#8).enabledMask = false) ∧
    (let s := pending 0x03#8 0x03#8
     s.ime = true ∧ guardPasses s.cfg.irqGuard s.requestedFlags s.enabledMask = true ∧ s.winner = some .videoBlank ∧
       s.cfg.ackPolicy = .clearAll ∧ (serviced s).winner = some .videoBlank ∧ (serviced s).cfg.ackPolicy = .clearServiced) ∧
    (let s := literal (pending 0x01#8 0x02#8)
     s.ime = true ∧ guardPasses s.cfg.irqGuard s.requestedFlags s.enabledMask = true ∧ s.winner = none ∧
       s.cfg.ackPolicy = .clearAll ∧ (serviced s).winner = none ∧ (serviced s).cfg.ackPolicy = .clearServiced) := by decide

/-- A stack in RAM, in read-only memory, on a device; and one that spares one register but not the other. -/
theorem witness_HandleInterruptsFrame :
    ((pending 0x01#8 0x01#8).pushSpares .intEnable = true ∧ (pending 0x01#8 0x01#8).pushSpares .intRequest = true) ∧
    ({ mapped with sp := 0x0100#16 }.pushSpares .intEnable = true ∧
      { mapped with sp := 0x0100#16 }.pushSpares .intRequest = true) ∧
    ({ mapped with sp := 0x4010#16 }.pushSpares .intEnable = true ∧
      { mapped with sp := 0x4010#16 }.pushSpares .intRequest = true) ∧
    ({ mapped with sp := 0x0000#16 }.pushSpares .intEnable = false ∧
      { mapped with sp := 0x0000#16 }.pushSpares .intRequest = true) := by decide

/-- The last in-flight tick of a `NOP`. -/
theorem witness_InFlightTick :
    let s := program 0x0100#16 2 [0x00#8]
    s.gated = false ∧ s.elapsedCycles + 1 < (s.cfg.itab.lookup (s.busValue s.pc)).duration := by decide

/-- The completion tick of a `JP` at its exact count, and one with a count carried over beyond the duration. -/
theorem witness_CompletionTick :
    (let s := program 0xFFFF#16 15 [0xC3#8, 0x50#8, 0x01#8]
     s.gated = false ∧ s.tableOk = true ∧ s.plainFetch s.descriptorAt.length = true ∧
       s.descriptorAt.duration = s.elapsedCycles + 1) ∧
    (let s := program 0x0040#16 10 [0x3C#8]
     s.gated = false ∧ s.tableOk = true ∧ s.plainFetch s.descriptorAt.length = true ∧
       s.descriptorAt.duration < s.elapsedCycles + 1) := by decide

/-- Operand bytes answered by a device; an opcode answered by a device; an opcode answered by a mapped controller register. -/
theorem witness_CompletionTickOnAnyBus :
    (jumpIntoDevice.gated = false ∧ jumpIntoDevice.tableOk = true ∧
      (jumpIntoDevice.cfg.itab.lookup jumpIntoDevice.opcodeAnswer).duration ≤ jumpIntoDevice.elapsedCycles + 1 ∧
      jumpIntoDevice.kindAt (jumpIntoDevice.pc + 1) = .device) ∧
    (let s := under ⟨3, 1, .nothing, true, ""⟩ { mapped with pc := 0x4000#16 }
     s.gated = false ∧ s.tableOk = true ∧ (s.cfg.itab.lookup s.opcodeAnswer).duration ≤ s.elapsedCycles + 1 ∧
       s.kindAt s.pc = .device) ∧
    (let s := { mapped with pc := 0xFF0F#16, requestedFlags := 0x3C#8, elapsedCycles := 3 }
     s.gated = false ∧ s.tableOk = true ∧ s.opcodeAnswer = 0x3C#8 ∧
       (s.cfg.itab.lookup s.opcodeAnswer).duration ≤ s.elapsedCycles + 1) := by
  refine ⟨by decide, ⟨rfl, by decide, ?_, by decide⟩, by decide⟩
  exact Nat.le_refl 1

theorem witness_StepRunsWhatTheBusAnswers :
    let s := jumpIntoDevice
    s.inputs = [] ∧ s.tableOk = true ∧ s.gated = false ∧
      decode s.cfg.itab [s.opcodeAnswer, s.lowAnswer, s.highAnswer] =
        .ok (.jpA16 (operandL3 (Config.deviceRead 0 0x4000#16) (Config.deviceRead 1 0x4001#16)), []) ∧
      Instr.wellFormed s.cfg.itab (.jpA16 (operandL3 (Config.deviceRead 0 0x4000#16) (Config.deviceRead 1 0x4001#16))) = true ∧
      (s.cfg.itab.lookup s.opcodeAnswer).duration ≤ s.elapsedCycles + 1 := by
  exact ⟨rfl, by decide, rfl, rfl, by decide, by decide⟩

theorem witness_HaltGate :
    ({ flat with halted := true, cfg := { defaultParams with haltGatesCycle := true } }.halted = true ∧
      { flat with halted := true, cfg := { defaultParams with haltGatesCycle := true } }.cfg.haltGatesCycle = true) ∧
    (flat.cfg.haltGatesCycle = false ∧
      flat.elapsedCycles + 1 < (flat.cfg.itab.lookup (flat.busValue flat.pc)).duration) := by decide

/-- Vector V5. -/
theorem witness_FetchWraps :
    let s := under ⟨3, 1, .nothing, true, ""⟩ (program 0xFFFF#16 0 [0x5A#8, 0x34#8, 0x12#8])
    s.pc = 0xFFFF#16 ∧ s.gated = false ∧ s.tableOk = true ∧ s.plainFetch 3 = true ∧ s.descriptorAt.length = 3 ∧
      s.descriptorAt.duration ≤ s.elapsedCycles + 1 ∧ s.descriptorAt.advancesProgramCounter = true ∧
      s.descriptorAt.effect = .nothing := by decide

theorem witness_StepRunsTheDecodedInstruction :
    let s := program 0x0003#16 7 [0x3E#8, 0x05#8]
    s.inputs = [] ∧ s.tableOk = true ∧ s.gated = false ∧ s.plainFetch 3 = true ∧
      decode s.cfg.itab [s.byteAt s.pc, s.byteAt (s.pc + 1), s.byteAt (s.pc + 2)] = .ok (.ldAD8 0x05#8, [0x00#8]) ∧
      Instr.wellFormed s.cfg.itab (.ldAD8 0x05#8) = true ∧ s.descriptorAt.duration ≤ s.elapsedCycles + 1 := by decide

theorem witness_TickIsCycleThenHandleInterrupts :
    let s := { flat with inputs := [.clock [.request 1#8] [.enable 1#8] [.poke 0#16 1#8]] }
    s.tableOk = true ∧ s.inputs = .clock [.request 1#8] [.enable 1#8] [.poke 0#16 1#8] :: [] := by decide

theorem witness_SilentTickIsCycleThenHandleInterrupts : mapped.tableOk = true ∧ mapped.inputs = [] := by decide

/-- The reset state of the fixture environment, where `NOP` takes four ticks: n = 1, 2, 3 are in flight. -/
theorem witness_TimingProperty :
    flat.inputs = [] ∧ flat.elapsedCycles = 0 ∧ flat.tableOk = true ∧ flat.gated = false ∧ flat.noDispatch = true ∧
    flat.plainFetch flat.descriptorAt.length = true ∧ 3 < flat.descriptorAt.duration := by decide

/-- Source 2, requested with source 0 that is not enabled. -/
theorem witness_DispatchAbandonsInstructionInFlight :
    let s := { program 0x0004#16 1 [0x00#8] with ime := true, sp := 0xD000#16, requestedFlags := 5#8, enabledMask := 4#8 }
    s.inputs = [] ∧ s.tableOk = true ∧ s.gated = false ∧ s.ime = true ∧ s.stackInRam = true ∧
      s.elapsedCycles + 1 < (s.cfg.itab.lookup (s.busValue s.pc)).duration ∧
      (s.requestedFlags.getLsbD IrqSource.timer.bit && s.enabledMask.getLsbD IrqSource.timer.bit) = true ∧
      (∀ j : IrqSource, j.bit < IrqSource.timer.bit →
        (s.requestedFlags.getLsbD j.bit && s.enabledMask.getLsbD j.bit) = false) := by
  refine ⟨rfl, by decide, rfl, rfl, by decide, by decide, by decide, ?_⟩
  intro j
  cases j <;> decide

theorem witness_EnableTakesEffectAtOnce :
    let s := { program 0x0003#16 3 [0xFB#8] with sp := 0xD000#16, requestedFlags := 5#8, enabledMask := 4#8 }
    s.inputs = [] ∧ s.tableOk = true ∧ s.gated = false ∧ s.stackInRam = true ∧ s.plainAt s.pc = true ∧
      s.byteAt s.pc = 0xFB#8 ∧ s.cfg.itab.bindsFixture 0xFB#8 = true ∧ 4 ≤ s.elapsedCycles + 1 ∧
      (s.requestedFlags.getLsbD IrqSource.timer.bit && s.enabledMask.getLsbD IrqSource.timer.bit) = true ∧
      (∀ j : IrqSource, j.bit < IrqSource.timer.bit →
        (s.requestedFlags.getLsbD j.bit && s.enabledMask.getLsbD j.bit) = false) := by
  refine ⟨rfl, by decide, rfl, by decide, by decide, by decide, by decide, by decide, by decide, ?_⟩
  intro j
  cases j <;> decide

theorem witness_BusReadAfterWrite :
    mapped.ramAt 0x0100#16 = true ∧ mapped.ramAt 0x00FF#16 = false ∧ (0x0101#16 : Word) ≠ 0x0100#16 := by decide

theorem witness_FetchSeesStores : flat.ramAt flat.pc = true ∧ flat.gated = false ∧ flat.tableOk = true := by decide

theorem witness_EveryStepAnswers : State.reset.tableOk = true := by decide

/-- `length = 4` and `duration = 0`, with an empty queue and with a clock period queued. -/
theorem witness_BadTableIsRefused :
    (under ⟨4, 1, .nothing, true, ""⟩ flat).tableOk = false ∧ (under ⟨1, 0, .nothing, true, ""⟩ flat).tableOk = false ∧
    (under ⟨1, 256, .nothing, true, ""⟩ flat).tableOk = false ∧
    (∀ rest, (under ⟨4, 1, .nothing, true, ""⟩ flat).inputs ≠ .reset :: rest) := by
  refine ⟨by decide, by decide, by decide, ?_⟩
  intro rest h
  cases h

/-- The largest count the invariant allows, and a step from it. -/
theorem witness_CountStaysBounded :
    let s := under ⟨1, 255, .nothing, true, ""⟩ (program 0x0100#16 254 [0x5A#8])
    s.countBounded = true ∧ ends (step s) (fun t => t.elapsedCycles == 0) = true := by decide

theorem witness_StepKeepsWellFormedness :
    let s := { program 0x0006#16 15 [0xEA#8, 0x00#8, 0xC0#8] with regs := ⟨[0x06#8], []⟩ }
    s.memWf = true ∧ s.tableOk = true ∧ ends (step s) (fun t => t.mem.length == 3) = true := by decide

theorem witness_ParametersNeverChange : ends (step flat) (fun _ => true) = true := by decide

theorem witness_RegisterSetIsFixed : ends (step (program 0x0003#16 7 [0x3E#8, 0x05#8])) (fun _ => true) = true := by decide

/-- Each clause: a halted core that goes on fetching, a dispatch that wakes it. -/
theorem witness_HaltedIsClearedOnlyByDispatch :
    ends (cycle { flat with halted := true }) (fun _ => true) = true ∧
    ends (handleInterrupts { pending 0x04#8 0x04#8 with halted := true }) (fun t => !t.halted) = true ∧
    (pending 0x04#8 0x04#8).ime = true ∧
    guardPasses (pending 0x04#8 0x04#8).cfg.irqGuard (pending 0x04#8 0x04#8).requestedFlags
      (pending 0x04#8 0x04#8).enabledMask = true := by decide

/-- A hang with a request pending and a move of the environment to come. -/
theorem witness_GatedHaltIsAHang :
    { flat with
      halted := true, cfg := { defaultParams with haltGatesCycle := true }, requestedFlags := 0x1F#8
      enabledMask := 0x1F#8, inputs := [.clock [.request 1#8] [] []] }.hung = true := by decide

/-- A store at 0xC000 by the step. -/
theorem witness_MemoryChangesOnlyByBusWrites :
    let s := { program 0x0006#16 15 [0xEA#8, 0x00#8, 0xC0#8] with regs := ⟨[0x06#8], []⟩ }
    s.inputs = [] ∧ ends (step s) (fun t => t.byteAt 0xC000#16 != s.byteAt 0xC000#16) = true := by decide

end Sys2Proof.Tests
end

section
/-! SUPPORT. Every step of a table within the contract answers (00 R7, 40 R84). -/

namespace Sys2Proof.Machine

/-- The environment cannot touch the Instruction Table (20 R47, 70 R153). -/
@[simp] theorem State.environment_tableOk (moves : List EnvMove) (s : State) :
    (s.environment moves).tableOk = s.tableOk := by
  simp [State.tableOk]

/-- Neither operation of a tick stops: `cycle` by the contract, `handleInterrupts` always (40 R84). -/
theorem tick_next (before between after : List EnvMove) (s : State) (h : s.tableOk = true) :
    ∃ t, tick before between after s = .next t := by
  obtain ⟨c, hc⟩ := cycle_next (s.environment before) (by simpa using h)
  obtain ⟨d, hd⟩ := handleInterrupts_next (c.environment between)
  exact ⟨d.environment after, by simp [tick, andThen, hc, hd]⟩

theorem clockTick_eq_tick (before between after : List EnvMove) (s : State) (h : s.tableOk = true) :
    clockTick before between after s = tick before between after (s.setPorts []) :=
  if_pos h

theorem clockTick_next (before between after : List EnvMove) (s : State) (h : s.tableOk = true) :
    ∃ t, clockTick before between after s = .next t := by
  rw [clockTick_eq_tick before between after s h]
  exact tick_next before between after (s.setPorts []) h

theorem runInput_next (i : Input) (s : State) (h : s.tableOk = true) : ∃ t, runInput i s = .next t := by
  cases i with
  | clock before between after => exact clockTick_next before between after s h
  | reset => exact ⟨(s.setPorts []).powerOn, rfl⟩

theorem step_of_no_inputs (s : State) (h : s.inputs = []) : step s = clockTick [] [] [] s := by
  simp only [step, nextInput, h]

theorem step_of_input (s : State) (i : Input) (rest : List Input) (h : s.inputs = i :: rest) :
    step s = runInput i (s.setInputs rest) := by
  simp only [step, nextInput, h]

/-- Settles O46, by cases on the queue: a silent clock period where it is empty, its head otherwise. -/
theorem everyStepAnswers : Obligations.EveryStepAnswers := by
  intro s h
  show ∃ t, step s = .next t
  cases hi : s.inputs with
  | nil =>
    rw [step_of_no_inputs s hi]
    exact clockTick_next [] [] [] s h
  | cons i rest =>
    rw [step_of_input s i rest hi]
    exact runInput_next i (s.setInputs rest) h

end Sys2Proof.Machine
end

section
/-! SUPPORT. What every step keeps: the count's bound, the canonical memory, the parameters, the register set (10 R11, R21,
R26, 20 R40, 70 R153); and that the reset state meets these invariants. -/

namespace Sys2Proof.Machine

/-- What every step keeps: prove it of the reset input, of the bookkeeping of the queue and the log, of the environment and of
the two operations of a tick, and it holds of every step. A tick runs only under a table within the contract (41 R106). -/
theorem step_invariant (P : State → Prop) (hreset : ∀ s, P s → P s.powerOn)
    (hbook : ∀ s inputs ports, P s → P { s with inputs := inputs, ports := ports })
    (henv : ∀ s moves, P s → P (State.environment s moves))
    (hcycle : ∀ s t, s.tableOk = true → cycle s = .next t → P s → P t)
    (hint : ∀ s t, handleInterrupts s = .next t → P s → P t) (s t : State) (hs : P s) (h : step s = .next t) : P t := by
  rcases step_cases s t h with ⟨rest, -, rfl⟩ | ⟨hok, before, between, after, rest, c, d, -, hc, hd, rfl⟩
  · exact hreset _ (hbook s rest [] hs)
  · have hbefore := henv _ before (hbook s rest [] hs)
    have hafterCycle : P c := hcycle _ c (by rw [State.environment_tableOk]; exact hok) hc hbefore
    exact henv d after (hint _ d hd (henv c between hafterCycle))

/-! ### The parameters -/

/-- No step changes a parameter (10 R21, 70 R153). -/
theorem step_cfg (s t : State) (h : step s = .next t) : t.cfg = s.cfg :=
  step_invariant (fun u => u.cfg = s.cfg) (fun _ hu => hu) (fun _ _ _ hu => hu)
    (fun u moves hu => (u.environment_cfg moves).trans hu) (fun u v _ huv hu => (cycle_cfg u v huv).trans hu)
    (fun u v huv hu => (handleInterrupts_cfg u v huv).trans hu) s t rfl h

/-- Settles O52: neither operation of a tick, no move of the environment and no reset input writes the parameters. -/
theorem parametersNeverChange : Obligations.ParametersNeverChange := step_cfg

/-! ### The register set -/

theorem cycle_shape (s t : State) (h : cycle s = .next t) : RegFile.shape t.regs = RegFile.shape s.regs := by
  rcases cycle_cases s t h with ⟨-, rfl⟩ | ⟨-, -, rfl⟩ | ⟨-, -, e, o, l, a, f, p, rfl⟩ <;>
    simp [State.fetchOpcode_eq]

/-- What no `handleInterrupts` call can do to one field: prove it of the two samples and of the dispatch. -/
theorem handleInterrupts_keeps {α : Type} (f : State → α) (hsampled : ∀ s, f (State.sampled s) = f s)
    (htake : ∀ w s, f (takeInterrupt w s) = f s) (s t : State) (h : handleInterrupts s = .next t) : f t = f s := by
  rcases handleInterrupts_cases s t h with ⟨-, rfl⟩ | ⟨-, -, rfl⟩ | ⟨-, -, w, rfl⟩
  · rfl
  · exact hsampled s
  · exact (htake w s.sampled).trans (hsampled s)

section
variable (s t : State) (h : handleInterrupts s = .next t)
include h

theorem handleInterrupts_regs : t.regs = s.regs :=
  handleInterrupts_keeps (·.regs) (fun _ => rfl) takeInterrupt_regs s t h

theorem handleInterrupts_busMap : t.busMap = s.busMap :=
  handleInterrupts_keeps (·.busMap) (fun _ => rfl) takeInterrupt_busMap s t h

theorem handleInterrupts_fresh : t.fresh = s.fresh :=
  handleInterrupts_keeps (·.fresh) (fun _ => rfl) takeInterrupt_fresh s t h

theorem handleInterrupts_elapsedCycles : t.elapsedCycles = s.elapsedCycles :=
  handleInterrupts_keeps (·.elapsedCycles) (fun _ => rfl) takeInterrupt_elapsedCycles s t h
end

theorem State.powerOn_shape (s : State) : RegFile.shape s.powerOn.regs = RegFile.shape s.regs :=
  RegFile.shape_zeroed s.regs

/-- Settles O53: an effect writes registers in place, a reset zeroes them in place, and nothing else reaches them. -/
theorem registerSetIsFixed : Obligations.RegisterSetIsFixed := by
  intro s t h
  refine step_invariant (fun u => RegFile.shape u.regs = RegFile.shape s.regs) (fun u hu => u.powerOn_shape.trans hu)
    (fun _ _ _ hu => hu) (fun u moves hu => ?_) (fun u v _ huv hu => (cycle_shape u v huv).trans hu)
    (fun u v huv hu => ?_) s t rfl h
  · rwa [State.environment_regs]
  · rwa [handleInterrupts_regs u v huv]

/-! ### The count -/

theorem State.countBounded_iff (s : State) : s.countBounded = true ↔ s.elapsedCycles + 1 ≤ s.cfg.dmax := by
  simp [State.countBounded]

/-- The bound speaks of the count and the parameters only. -/
theorem State.countBounded_congr (s t : State) (hcount : t.elapsedCycles = s.elapsedCycles) (hcfg : t.cfg = s.cfg) :
    t.countBounded = s.countBounded := by
  simp only [State.countBounded, hcount, hcfg]

theorem State.countBounded_of_zero (s t : State) (hcount : t.elapsedCycles = 0) (hcfg : t.cfg = s.cfg)
    (hs : s.countBounded = true) : t.countBounded = true := by
  rw [State.countBounded_iff] at hs ⊢
  rw [hcount, hcfg]
  omega

theorem State.duration_le_dmax (s : State) (op : Byte) (h : s.tableOk = true) :
    (s.cfg.itab.lookup op).duration ≤ s.cfg.dmax := by
  obtain ⟨-, -, -, hle⟩ := (Descriptor.ok_iff _ _).mp ((Table.ok_iff _ _).mp h op)
  exact hle

/-- A completion clears the count, and a call in flight leaves it below a duration, which is at most DMAX (41 R92). -/
theorem cycle_countBounded (s t : State) (hok : s.tableOk = true) (h : cycle s = .next t)
    (hs : s.countBounded = true) : t.countBounded = true := by
  rcases cycle_cases s t h with ⟨-, rfl⟩ | ⟨-, hlt, rfl⟩ | ⟨-, -, e, o, l, a, f, p, rfl⟩
  · exact hs
  · have hmax := s.duration_le_dmax (s.busValue s.pc) hok
    rw [State.fetchOpcode_eq, State.countBounded_iff]
    show s.elapsedCycles + 1 + 1 ≤ s.cfg.dmax
    omega
  · exact State.countBounded_of_zero s _ (completeInstr_elapsedCycles _ _ _ _ _) (completeInstr_cfg _ _ _ _ _) hs

/-- Settles O49: `cycle` keeps the bound by the contract of the table, and nothing else but a reset, which clears it, writes
the count. -/
theorem countStaysBounded : Obligations.CountStaysBounded := by
  refine fun s t hs h => step_invariant (fun u => u.countBounded = true)
    (fun u hu => State.countBounded_of_zero u _ rfl rfl hu) (fun _ _ _ hu => hu) (fun u moves hu => ?_)
    cycle_countBounded (fun u v huv hu => ?_) s t hs h
  · rwa [State.countBounded_congr u _ (u.environment_elapsedCycles moves) (u.environment_cfg moves)]
  · rwa [State.countBounded_congr u v (handleInterrupts_elapsedCycles u v huv) (handleInterrupts_cfg u v huv)]

/-! ### Memory and the table -/

/-- Every store is a write inside the address space, and such a write keeps the canonical form (20 R40). -/
theorem step_memWf (s t : State) (hs : s.memWf = true) (h : step s = .next t) : t.memWf = true :=
  step_invariant (fun u => u.memWf = true) (fun _ hu => hu) (fun _ _ _ hu => hu)
    (fun u moves hu => u.environment_memWf moves hu) (fun u v _ huv hu => cycle_memWf u v huv hu)
    (fun u v huv hu => handleInterrupts_memWf u v huv hu) s t hs h

theorem step_tableOk (s t : State) (h : step s = .next t) : t.tableOk = s.tableOk := by
  simp only [State.tableOk, step_cfg s t h]

/-- Settles O50: memory by the law of a write, the table because no step changes a parameter. -/
theorem stepKeepsWellFormedness : Obligations.StepKeepsWellFormedness :=
  fun s t hmem htable h => ⟨step_memWf s t hmem h, (step_tableOk s t h).trans htable⟩

/-! ### The reset state -/

/-- FT's rows, and the row of the other opcodes, have lengths 1 to 3 and durations 4 to 16 (95 section 4). -/
theorem fixtureTable_ok : fixtureTable.ok defaultParams.dmax = true := by decide

/-- Settles O51: nothing is stored yet, FT is within the contract, and the count is 0. -/
theorem resetMeetsInvariants : Obligations.ResetMeetsInvariants :=
  ⟨rfl, fixtureTable_ok, by decide⟩

/-- Settles O1: the reset state's fields, and the one register of its file, are written as zero. -/
theorem resetStateIsZero : Obligations.ResetStateIsZero := by
  refine ⟨rfl, rfl, rfl, rfl, rfl, ?_, ?_⟩ <;> simp [State.reset]

end Sys2Proof.Machine
end

section
/-! SUPPORT. What `handleInterrupts` and a dispatch leave unchanged, and the push at the ends of the address space (10 R14,
R17-R19, 60 R132). -/

namespace Sys2Proof.Machine

/-! ### The controller registers and memory after a dispatch -/

/-- An acknowledge only clears request bits (60 R120, R127). -/
theorem State.acknowledge_sets_no_request (s : State) (w : Option IrqSource) :
    (s.acknowledge w).requestedFlags &&& ~~~s.requestedFlags = 0#8 := by
  have hclear : ∀ m : Byte, s.requestedFlags &&& ~~~m &&& ~~~s.requestedFlags = 0#8 := fun m => by
    rw [BitVec.and_assoc, BitVec.and_comm (~~~m), ← BitVec.and_assoc, BitVec.and_not_self]
    exact BitVec.zero_and
  cases hp : s.cfg.ackPolicy <;> cases w <;> simp only [State.acknowledge, hp, State.clearIF_requestedFlags, hclear]
  exact BitVec.and_not_self _

section
variable (w : Option IrqSource) (s : State)

theorem takeInterrupt_enabledMask : (takeInterrupt w s).enabledMask = s.pushedOnto .intEnable s.enabledMask := by
  rw [takeInterrupt_eq, State.acknowledge_eq]
  exact s.pushPc_enabledMask

theorem takeInterrupt_sets_no_request :
    (takeInterrupt w s).requestedFlags &&& ~~~(s.pushedOnto .intRequest s.requestedFlags) = 0#8 := by
  rw [takeInterrupt_eq, ← s.pushPc_requestedFlags]
  exact State.acknowledge_sets_no_request { s.pushPc with ime := false, halted := false, pc := _ } w

theorem takeInterrupt_byteAt (b : Word) : (takeInterrupt w s).byteAt b = s.pushPc.byteAt b := by
  simp only [State.byteAt, takeInterrupt_mem]
end

section
variable (s t : State) (h : handleInterrupts s = .next t)
include h

theorem handleInterrupts_enabledMask (hs : s.pushSpares .intEnable = true) : t.enabledMask = s.enabledMask := by
  rcases handleInterrupts_cases s t h with ⟨-, rfl⟩ | ⟨-, -, rfl⟩ | ⟨-, -, w, rfl⟩
  · rfl
  · rfl
  · exact (takeInterrupt_enabledMask w s.sampled).trans (State.pushedOnto_spared s.sampled _ _ hs)

theorem handleInterrupts_sets_no_request (hs : s.pushSpares .intRequest = true) :
    t.requestedFlags &&& ~~~s.requestedFlags = 0#8 := by
  rcases handleInterrupts_cases s t h with ⟨-, rfl⟩ | ⟨-, -, rfl⟩ | ⟨-, -, w, rfl⟩
  · exact BitVec.and_not_self _
  · exact BitVec.and_not_self _
  · have htake := takeInterrupt_sets_no_request w s.sampled
    rwa [State.pushedOnto_spared s.sampled _ _ hs] at htake

theorem handleInterrupts_byteAt_other (b : Word) (h1 : b ≠ s.sp - 1) (h2 : b ≠ s.sp - 2) :
    t.byteAt b = s.byteAt b := by
  rcases handleInterrupts_cases s t h with ⟨-, rfl⟩ | ⟨-, -, rfl⟩ | ⟨-, -, w, rfl⟩
  · rfl
  · rfl
  · exact (takeInterrupt_byteAt w s.sampled b).trans (s.sampled.pushPc_byteAt_other b (.inl h1) (.inl h2))
end

/-- Settles O33, field by field over the three kinds of call: gated, guarded, dispatching. -/
theorem handleInterruptsFrame : Obligations.HandleInterruptsFrame := by
  intro s
  obtain ⟨t, h⟩ := handleInterrupts_next s
  exact ⟨t, h, handleInterrupts_regs s t h, handleInterrupts_cfg s t h, handleInterrupts_busMap s t h,
    handleInterrupts_inputs s t h, handleInterrupts_fresh s t h, handleInterrupts_enabledMask s t h,
    handleInterrupts_sets_no_request s t h, handleInterrupts_byteAt_other s t h⟩

/-! ### The push at the ends of the address space -/

theorem State.stackInRam_iff (s : State) :
    s.stackInRam = true ↔ s.ramAt (s.sp - 1) = true ∧ s.ramAt (s.sp - 2) = true := by
  simp [State.stackInRam]

/-- Settles O24: the two pushed bytes are at `sp - 1` and `sp - 2` modulo 2^16, read at the two boundary values. -/
theorem pushWraps : Obligations.PushWraps := by
  intro k s hram
  obtain ⟨hramHigh, hramLow⟩ := s.stackInRam_iff.mp hram
  have hsp := takeInterrupt_sp (some k) s
  have hhigh := (takeInterrupt_byteAt (some k) s _).trans (s.pushPc_byteAt_high hramHigh)
  have hlow := (takeInterrupt_byteAt (some k) s _).trans (s.pushPc_byteAt_low hramLow)
  refine ⟨_, exec_intOf k s, ?_, ?_⟩
  all_goals
    intro h
    rw [h] at hsp hhigh hlow
    exact ⟨hsp, hhigh, hlow⟩

end Sys2Proof.Machine
end

section
/-! SUPPORT. The completion tick of a three-byte instruction, and the fetch at the top of the address space (10 R13). -/

namespace Sys2Proof.Machine

/-! ### A fixture instruction of length 3 is its class -/

/-- Whether an opcode with a two-byte operand is read as FT's mnemonic or as its class makes no difference (log 16). -/
theorem exec_decoded_length3 (op lo hi : Byte) (s : State) :
    exec (if s.cfg.itab.bindsFixture op then fixtureL3 op lo hi else .opL3 op lo hi) s = execOpL3 op lo hi s := by
  split
  · rename_i hb
    obtain ⟨-, -, heffect, hadvances⟩ := (s.cfg.itab.bindsFixture_iff op).mp hb
    unfold fixtureL3
    repeat' split
    all_goals
      subst_vars
      simp [exec, execOpL3, execLdSpD16, execJpA16, execLdA16A, execLdAA16, heffect, hadvances, effectOf]
  · rfl

/-! ### Completion -/

/-- A call that is not gated and reaches the duration completes the instruction (40 R69, R70). -/
theorem cycle_of_duration_reached (s : State) (hg : s.gated = false)
    (hd : (s.cfg.itab.lookup s.opcodeAnswer).duration ≤ s.elapsedCycles + 1) :
    cycle s = completionTick s.opcodeAnswer s.fetchOpcode.2 := by
  have hop : s.fetchOpcode.1 = s.opcodeAnswer := (s.fetch_eq 0).1
  have hcount : s.fetchOpcode.2.elapsedCycles = s.elapsedCycles + 1 := by rw [State.fetchOpcode_eq]
  have hg' : ¬ (s.halted && s.cfg.haltGatesCycle) = true := by simpa [State.gated] using hg
  simp only [cycle, if_neg hg', hop, hcount, if_neg (Nat.not_lt.mpr hd)]

theorem completionTick_length3 (s : State) (hl : (s.cfg.itab.lookup s.opcodeAnswer).length = 3) :
    completionTick s.opcodeAnswer s.fetchOpcode.2 = execOpL3 s.opcodeAnswer s.lowAnswer s.highAnswer (s.answered 3) := by
  have hcfg : s.fetchOpcode.2.cfg = s.cfg := by rw [State.fetchOpcode_eq]
  have hanswered : (s.answered 3).cfg = s.cfg := rfl
  rw [← exec_decoded_length3, hanswered]
  simp only [completionTick, hcfg, hl, (s.fetch_eq 3).2]
  simp [decode_length3 _ _ _ _ _ hl]

/-! ### Plain memory -/

theorem State.afterRead_plain (s : State) (a : Word) (h : s.plainAt a = true) : s.afterRead a = s := by
  rcases (s.plainAt_iff a).mp h with hk | hk <;> simp [State.afterRead, hk]

theorem State.plainFetch_length3_iff (s : State) :
    s.plainFetch 3 = true ↔ s.plainAt s.pc = true ∧ s.plainAt (s.pc + 1) = true ∧ s.plainAt (s.pc + 2) = true := by
  simp [State.plainFetch, and_assoc]

section
variable (s : State) (h : s.plainFetch 3 = true)
include h

/-- The Bus answers the three bytes that plain memory holds. -/
theorem State.answers_length3_plain : s.opcodeAnswer = s.byteAt s.pc ∧ s.lowAnswer = s.byteAt (s.pc + 1) ∧
    s.highAnswer = s.byteAt (s.pc + 2) := by
  obtain ⟨hop, hlow, hhigh⟩ := s.plainFetch_length3_iff.mp h
  simp only [State.opcodeAnswer, State.lowAnswer, State.highAnswer, s.afterRead_plain _ hop, s.afterRead_plain _ hlow,
    s.busValue_plain _ hop, s.busValue_plain _ hlow, s.busValue_plain _ hhigh, and_self]

/-- Three reads of plain memory use up no free value. -/
theorem State.afterFetch_length3_plain : s.afterFetch 3 = s := by
  obtain ⟨hop, hlow, hhigh⟩ := s.plainFetch_length3_iff.mp h
  show ((s.afterRead s.pc).afterRead (s.pc + 1)).afterRead (s.pc + 2) = s
  rw [s.afterRead_plain _ hop, s.afterRead_plain _ hlow, s.afterRead_plain _ hhigh]

/-- Three reads of plain memory change nothing but the log. -/
theorem State.answered_length3_plain : s.answered 3 = s.fetched 3 := by
  obtain ⟨vop, vlow, vhigh⟩ := s.answers_length3_plain h
  simp [State.answered, State.fetched, s.afterFetch_length3_plain h, State.answerPorts, State.opcodePorts,
    State.operandPorts, vop, vlow, vhigh]

/-- The completion tick of a three-byte instruction in plain memory is its class, on the state with its bytes read (40 R77). -/
theorem cycle_length3_plain (hg : s.gated = false) (hl : s.descriptorAt.length = 3)
    (hd : s.descriptorAt.duration ≤ s.elapsedCycles + 1) :
    cycle s = execOpL3 (s.byteAt s.pc) (s.byteAt (s.pc + 1)) (s.byteAt (s.pc + 2)) (s.fetched 3) := by
  obtain ⟨vop, vlow, vhigh⟩ := s.answers_length3_plain h
  have hdesc : s.cfg.itab.lookup s.opcodeAnswer = s.descriptorAt := by rw [vop]; rfl
  rw [cycle_of_duration_reached s hg (by rwa [hdesc]), completionTick_length3 s (by rwa [hdesc]),
    s.answered_length3_plain h, vop, vlow, vhigh]
end

/-- Completing an instruction that does nothing: the log, `pc` and the count (40 R71-R73). -/
theorem completeInstr_nothing (operand : Word) (length : Nat) (s : State) :
    completeInstr nothingEffect operand length true s =
      { s with
        pc := s.pc + BitVec.ofNat 16 length, elapsedCycles := 0, ports := s.ports ++ [.effect operand] } := rfl

/-- Settles O37: with `pc` at 0xFFFF, `pc + 1`, `pc + 2` and `pc + 3` are 0x0000, 0x0001 and 0x0002 modulo 2^16. -/
theorem fetchWraps : Obligations.FetchWraps := by
  intro s hpc hg _ hplain hl hd hadvances heffect operand
  have hdesc : (s.fetched 3).cfg.itab.lookup (s.byteAt s.pc) = s.descriptorAt := rfl
  rw [cycle_length3_plain s hplain hg hl hd]
  simp only [execOpL3, hdesc, heffect, hadvances, effectOf, completeInstr_nothing]
  simp [State.fetched, State.opcodePorts, State.operandPorts, hpc, operandL3, operand]

end Sys2Proof.Machine
end

section
/-! SUPPORT. The Bus and memory: read after write, what a store and a load do at every address, the reach of the
environment, the accesses of `handleInterrupts`, and the two laws of the log: a call only adds to it, and every byte that
changes stands in it (20 R30, R31, R40, R42, R45, R47). -/

namespace Sys2Proof.Machine

/-! ### Read after write -/

/-- Everything a write does: one byte of RAM, or one mapped controller register, and the log (20 R30, R31; log 8, log 9). -/
theorem State.busWrite_eq (s : State) (a : Word) (v : Byte) :
    s.busWrite a v = { s with
      mem := if s.kindAt a = .ram then Memory.write s.mem a.toNat v else s.mem
      requestedFlags := if s.kindAt a = .intRequest then v else s.requestedFlags
      enabledMask := if s.kindAt a = .intEnable then v else s.enabledMask
      ports := s.ports ++ [.busWrite a v] } := by
  cases hk : s.kindAt a <;> simp only [State.busWrite, hk] <;> rfl

/-- The byte at the address of a write: the value where RAM is mapped, else the old byte (20 R40, 70 R162). -/
theorem State.busWrite_byteAt_self (s : State) (a : Word) (v : Byte) :
    (s.busWrite a v).byteAt a = if s.ramAt a then v else s.byteAt a := by
  cases hr : s.ramAt a with
  | true => exact s.busWrite_byteAt_same a v hr
  | false => exact s.busWrite_byteAt_other a a v (.inr hr)

@[simp] theorem State.busWrite_ramAt (s : State) (a b : Word) (v : Byte) : (s.busWrite a v).ramAt b = s.ramAt b := by
  simp [State.ramAt, State.kindAt]

/-- Read after write on RAM (20 R40 (2)). -/
theorem State.busWrite_busValue_ram (s : State) (a : Word) (v : Byte) (h : s.ramAt a = true) :
    (s.busWrite a v).busValue a = v := by
  have hplain := (s.busWrite a v).plainAt_of_ramAt a (by rwa [s.busWrite_ramAt])
  rw [State.busValue_plain _ _ hplain, s.busWrite_byteAt_same a v h]

/-- Settles O43, by the laws of a write: what it stores, and that it stores nothing elsewhere. -/
theorem busReadAfterWrite : Obligations.BusReadAfterWrite := by
  intro s a v
  refine ⟨s.busWrite_busValue_ram a v, fun b hb => s.busWrite_byteAt_other a b v (.inl hb), fun hr => ?_⟩
  rw [State.busWrite_mem, if_neg (by simpa [State.ramAt] using hr)]

/-! ### The store and the load -/

/-- Everything `LD (a16),A` does: one Bus write of `x[A]`, `pc` and the count (95 section 4). -/
theorem exec_ldA16A (s : State) (a16 : Word) :
    exec (.ldA16A a16) s =
      .next { (s.log (.effect a16)).busWrite a16 s.regAValue with pc := s.pc + 3, elapsedCycles := 0 } := by
  show Host.Outcome.next (completeInstr (storeAEffect a16) a16 3 true s) = _
  rw [completeInstr_eq]
  show Host.Outcome.next
    { (s.log (.effect a16)).busWrite a16 s.regAValue with
      pc := ((s.log (.effect a16)).busWrite a16 s.regAValue).pc + 3, elapsedCycles := 0 } = _
  rw [State.busWrite_pc, State.log_pc]

/-- Settles O18: the next state is the Bus write of `x[A]` but for `pc` and the count, so each clause is a law of a write. -/
theorem storeACompletes : Obligations.StoreACompletes := by
  intro s a16
  refine ⟨_, exec_ldA16A s a16, ?_, (s.log _).busWrite_byteAt_self a16 _,
    fun b hb => (s.log _).busWrite_byteAt_other a16 b _ (.inl hb), (s.log _).busWrite_requestedFlags a16 _,
    (s.log _).busWrite_enabledMask a16 _⟩
  rw [State.busWrite_eq]
  simp [State.log, State.setPorts]

@[simp] theorem State.log_kindAt (s : State) (e : PortEvent) (a : Word) : (s.log e).kindAt a = s.kindAt a := rfl

@[simp] theorem State.log_busValue (s : State) (e : PortEvent) (a : Word) : (s.log e).busValue a = s.busValue a := rfl

/-- Everything `LD A,(a16)` does: one Bus read into `x[A]`, `pc` and the count (95 section 4). -/
theorem exec_ldAA16 (s : State) (a16 : Word) :
    exec (.ldAA16 a16) s = .next { s with
      regs := RegFile.set8 s.regs regA (s.busValue a16), pc := s.pc + 3, elapsedCycles := 0
      fresh := if s.kindAt a16 = .device then s.fresh + 1 else s.fresh
      ports := s.ports ++ [.effect a16, .busRead a16 (s.busValue a16)] } := by
  show Host.Outcome.next (completeInstr (loadAEffect a16) a16 3 true s) = _
  rw [completeInstr_eq]
  simp only [loadAEffect, runEffect, State.busRead_eq, State.log_kindAt, State.log_busValue, State.log_ports,
    List.append_assoc]
  rfl

/-- Settles O19: the register file takes the Bus's answer at `x[A]`, and only a device's answer uses up a free value. -/
theorem loadACompletes : Obligations.LoadACompletes := by
  intro s a16
  refine ⟨_, _, exec_ldAA16 s a16, fun hA => ?_, List.length_set, fun j hj => RegFile.get8_set8_other _ _ _ _ hj, rfl,
    fun hplain => ⟨s.busValue_plain a16 hplain, if_neg fun hdev => ?_⟩⟩
  · exact RegFile.get8_set8_same _ _ _ (of_decide_eq_true hA)
  · simp [State.plainAt, hdev] at hplain

/-! ### The environment -/

/-- Settles O45: one move writes one of the four fields, and the rest of the moves does so by induction. -/
theorem environmentCannotWriteCpuState : Obligations.EnvironmentCannotWriteCpuState := by
  intro moves
  induction moves with
  | nil => exact fun s => rfl
  | cons m rest ih =>
    intro s
    refine (ih (s.envMove m)).trans ?_
    cases m <;> rfl

/-! ### The accesses of `handleInterrupts` -/

/-- The use of the controller's clear port by an acknowledge of this policy: none under `clear_serviced` where no source won
(60 R120, R126, R127). -/
def ackEvents : AckPolicy → Option IrqSource → List PortEvent
  | .clearAll, _ => [.clearIF 0xFF#8]
  | .clearServiced, some k => [.clearIF k.mask]
  | .clearServiced, none => []

theorem State.acknowledge_ports (s : State) (w : Option IrqSource) :
    (s.acknowledge w).ports = s.ports ++ ackEvents s.cfg.ackPolicy w := by
  cases hp : s.cfg.ackPolicy with
  | clearAll => simp only [State.acknowledge, hp]; rfl
  | clearServiced =>
    cases w with
    | none => simp only [State.acknowledge, hp, ackEvents, List.append_nil]
    | some k => simp only [State.acknowledge, hp]; rfl

/-- The accesses of a dispatch, in order: the two pushes and the clear (20 R42). -/
theorem takeInterrupt_ports (w : Option IrqSource) (s : State) :
    (takeInterrupt w s).ports =
      s.ports ++ [.busWrite (s.sp - 1) (highByte s.pc), .busWrite (s.sp - 2) (lowByte s.pc)] ++
        ackEvents s.cfg.ackPolicy w := by
  rw [takeInterrupt_eq, State.acknowledge_ports]
  simp

/-- Settles O31, by the three kinds of call: gated, guarded, dispatching. -/
theorem handleInterruptsPortOrder : Obligations.HandleInterruptsPortOrder := by
  intro s
  obtain ⟨t, h⟩ := handleInterrupts_next s
  refine ⟨t, h, fun hi => ?_, fun hi hg => ?_, fun hi hg => ?_⟩
  · rw [handleInterrupts_eq, if_pos hi] at h
    rw [Host.Outcome.next.inj h]
  · rw [handleInterrupts_eq, if_neg (by simp [hi]), if_pos hg] at h
    rw [← Host.Outcome.next.inj h]
    rfl
  · rw [handleInterrupts_dispatch s hi hg] at h
    rw [← Host.Outcome.next.inj h, takeInterrupt_ports]
    exact congrArg (· ++ ackEvents s.cfg.ackPolicy s.winner) (List.append_assoc s.ports _ _)

/-! ### A `cycle` call on the ports -/

theorem State.fetchOpcode_state (s : State) : s.fetchOpcode.2 = s.answered 0 :=
  congrArg Prod.snd (s.fetch_eq 0).2

/-- Reading the bytes of an instruction leaves memory alone. -/
theorem State.answered_mem (s : State) (n : Nat) : (s.answered n).mem = s.mem := by
  simp only [State.answered, State.afterFetch, State.afterRead]
  repeat' split
  all_goals rfl

/-- The three kinds of `cycle` call: gated, in flight, or one instruction completed on the state that its fetch leaves
(40 R66-R73, R81). It says of the log what `cycle_cases` leaves open. -/
theorem cycle_cases_answered (s t : State) (h : cycle s = .next t) :
    (s.gated = true ∧ t = s) ∨
    (s.gated = false ∧ t = s.answered 0) ∨
    (s.gated = false ∧ ∃ e operand length advances n, t = completeInstr e operand length advances (s.answered n)) := by
  rcases cycle_cases s t h with hgated | ⟨hg, -, ht⟩ | ⟨hg, hd, -⟩
  · exact .inl hgated
  · exact .inr (.inl ⟨hg, ht.trans s.fetchOpcode_state⟩)
  · refine .inr (.inr ⟨hg, ?_⟩)
    rw [cycle_of_duration_reached s hg hd] at h
    simp only [completionTick, (s.fetch_eq _).2] at h
    split at h
    · rename_i i rest hdec
      obtain ⟨e, operand, length, advances, he⟩ := exec_decoded _ _ _ _ (s.answered _) hdec
      rw [he] at h
      exact ⟨e, operand, length, advances, _, (Host.Outcome.next.inj h).symm⟩
    · cases h

theorem State.log_ports_grow (s : State) (e : PortEvent) : s.ports <+: (s.log e).ports := ⟨_, rfl⟩

theorem State.busRead_ports_grow (s : State) (a : Word) : s.ports <+: (s.busRead a).2.ports :=
  ⟨_, (s.busRead_ports a).symm⟩

theorem State.busWrite_ports_grow (s : State) (a : Word) (v : Byte) : s.ports <+: (s.busWrite a v).ports :=
  ⟨_, (s.busWrite_ports a v).symm⟩

/-- An effect only adds to the log (20 R36). -/
theorem runEffect_ports_grow (e : Effect) (s : State) : s.ports <+: (runEffect e s).ports :=
  runEffect_invariant (fun t => s.ports <+: t.ports) (fun t w h => by rwa [State.put_ports])
    (fun t a h => h.trans (t.busRead_ports_grow a)) (fun t a v h => h.trans (t.busWrite_ports_grow a v)) e s
    ⟨[], List.append_nil _⟩

theorem completeInstr_ports_grow (e : Effect) (operand : Word) (length : Nat) (advances : Bool) (s : State) :
    s.ports <+: (completeInstr e operand length advances s).ports := by
  rw [completeInstr_eq]
  exact (s.log_ports_grow _).trans (runEffect_ports_grow e (s.log (.effect operand)))

/-- The log of a call that is not gated begins with the opcode read and its lookup (40 R67, R68). -/
theorem cycle_ports_begin_with_fetch (s t : State) (h : cycle s = .next t) (hg : s.gated = false) :
    s.ports ++ [.busRead s.pc s.opcodeAnswer, .lookup s.opcodeAnswer] <+: t.ports := by
  have hfetch : ∀ n, s.ports ++ [.busRead s.pc s.opcodeAnswer, .lookup s.opcodeAnswer] <+: (s.answered n).ports :=
    fun n => ⟨_, List.append_assoc _ _ _⟩
  rcases cycle_cases_answered s t h with ⟨hgated, -⟩ | ⟨-, rfl⟩ | ⟨-, e, operand, length, advances, n, rfl⟩
  · simp [hg] at hgated
  · exact hfetch 0
  · exact (hfetch n).trans (completeInstr_ports_grow e operand length advances _)

/-- Settles O44: by read after write the Bus answers the stored byte to the opcode read, and the log begins with it. -/
theorem fetchSeesStores : Obligations.FetchSeesStores := by
  intro s v hram hg hok
  have hvalue : (s.busWrite s.pc v).opcodeAnswer = v := by
    rw [State.opcodeAnswer, State.busWrite_pc, s.busWrite_busValue_ram s.pc v hram]
  obtain ⟨t, h⟩ := cycle_next (s.busWrite s.pc v) (by simpa [State.tableOk] using hok)
  obtain ⟨later, hlater⟩ := cycle_ports_begin_with_fetch _ t h (by simpa [State.gated] using hg)
  refine ⟨t, later, h, hlater.symm.trans ?_⟩
  simp [hvalue]

/-! ### Every byte that changes stands in the log -/

/-- Every byte of memory in which `t` differs from `s` was written on the Bus, at that address, in the log of `t`. -/
def State.showsWrites (s t : State) : Prop :=
  ∀ b : Word, t.byteAt b ≠ s.byteAt b → ∃ v, PortEvent.busWrite b v ∈ t.ports

theorem State.showsWrites_of_mem_eq (s t : State) (h : t.mem = s.mem) : s.showsWrites t :=
  fun b hb => absurd (by simp only [State.byteAt, h]) hb

/-- An operation that keeps memory and only adds to the log keeps the law. -/
theorem State.showsWrites_mono (s t u : State) (hmem : u.mem = t.mem) (hports : t.ports <+: u.ports)
    (h : s.showsWrites t) : s.showsWrites u := fun b hb => by
  obtain ⟨v, hv⟩ := h b (by rwa [State.byteAt, hmem] at hb)
  exact ⟨v, hports.subset hv⟩

/-- A Bus write changes the byte at its own address only, and logs that address. -/
theorem State.showsWrites_busWrite (s t : State) (a : Word) (v : Byte) (h : s.showsWrites t) :
    s.showsWrites (t.busWrite a v) := fun b hb => by
  by_cases hba : b = a
  · exact ⟨v, by simp [hba]⟩
  · obtain ⟨w, hw⟩ := h b (by rwa [State.busWrite_byteAt_other t a b v (.inl hba)] at hb)
    exact ⟨w, (t.busWrite_ports_grow a v).subset hw⟩

section
variable (s t : State) (h : s.showsWrites t)
include h

theorem State.showsWrites_runEffect (e : Effect) : s.showsWrites (runEffect e t) :=
  runEffect_invariant s.showsWrites
    (fun u w => s.showsWrites_mono u _ (u.put_mem w) ⟨[], by simp⟩)
    (fun u a => s.showsWrites_mono u _ (u.busRead_mem a) (u.busRead_ports_grow a))
    s.showsWrites_busWrite e t h

theorem State.showsWrites_completeInstr (e : Effect) (operand : Word) (length : Nat) (advances : Bool) :
    s.showsWrites (completeInstr e operand length advances t) := by
  rw [completeInstr_eq]
  have hlog := s.showsWrites_mono t (t.log (.effect operand)) rfl ⟨_, rfl⟩ h
  exact s.showsWrites_runEffect _ hlog e

/-- A dispatch stores by its two pushes only. -/
theorem State.showsWrites_takeInterrupt (w : Option IrqSource) : s.showsWrites (takeInterrupt w t) := by
  have hpush : s.showsWrites t.pushPc :=
    s.showsWrites_busWrite _ _ _ (s.showsWrites_busWrite t _ _ h)
  refine s.showsWrites_mono t.pushPc _ (takeInterrupt_mem w t) ?_ hpush
  rw [takeInterrupt_ports, State.pushPc_ports]
  exact ⟨_, rfl⟩

theorem State.showsWrites_handleInterrupts (u : State) (hu : handleInterrupts t = .next u) : s.showsWrites u := by
  have hsampled := s.showsWrites_mono t t.sampled rfl ⟨_, rfl⟩ h
  rcases handleInterrupts_cases t u hu with ⟨-, rfl⟩ | ⟨-, -, rfl⟩ | ⟨-, -, w, rfl⟩
  · exact h
  · exact hsampled
  · exact s.showsWrites_takeInterrupt _ hsampled w

theorem State.showsWrites_cycle (u : State) (hu : cycle t = .next u) : s.showsWrites u := by
  have hfetch : ∀ n, s.showsWrites (t.answered n) := fun n =>
    s.showsWrites_mono t _ (t.answered_mem n) ⟨_, rfl⟩ h
  rcases cycle_cases_answered t u hu with ⟨-, rfl⟩ | ⟨-, rfl⟩ | ⟨-, e, operand, length, advances, n, rfl⟩
  · exact h
  · exact hfetch 0
  · exact s.showsWrites_completeInstr _ (hfetch n) e operand length advances
end

/-- Settles O56: a silent step is `cycle` and then `handleInterrupts` from an empty log, and both keep the law that every
byte that changed stands in the log. -/
theorem memoryChangesOnlyByBusWrites : Obligations.MemoryChangesOnlyByBusWrites := by
  intro s t hsilent h
  rcases step_cases s t h with ⟨rest, hreset, -⟩ | ⟨-, before, between, after, rest, c, d, hinputs, hc, hd, rfl⟩
  · simp [hsilent] at hreset
  · rcases hinputs with hclock | ⟨-, rfl, rfl, rfl, rfl⟩
    · simp [hsilent] at hclock
    · have hstart : s.showsWrites { s with inputs := [], ports := [] } := s.showsWrites_of_mem_eq _ rfl
      exact s.showsWrites_handleInterrupts c (s.showsWrites_cycle _ hstart c hc) d hd

end Sys2Proof.Machine
end

section
/-! SUPPORT. Decoder and encoder, one format class after the other (30 R50-R54): what an opcode of each length decodes to,
that this is an instruction of the table, and its bytes. Then the value of each operand form (30 R55-R57). -/

namespace Sys2Proof

/-! ### FT's opcodes by length (95 section 4) -/

section
variable (op : Byte)

/-- FT's one-byte opcodes are the `ILL` values and six rows. -/
theorem fixtureTable_opcodes_of_length1 (h : (fixtureTable.lookup op).length = 1) :
    isFixtureOpcode op = false ∨
      op = 0x00#8 ∨ op = 0x3C#8 ∨ op = 0x76#8 ∨ op = 0xD9#8 ∨ op = 0xF3#8 ∨ op = 0xFB#8 := by
  revert op
  decide

theorem fixtureTable_opcodes_of_length2 (h : (fixtureTable.lookup op).length = 2) : op = 0x18#8 ∨ op = 0x3E#8 := by
  revert op
  decide

theorem fixtureTable_opcodes_of_length3 (h : (fixtureTable.lookup op).length = 3) :
    op = 0x31#8 ∨ op = 0xC3#8 ∨ op = 0xEA#8 ∨ op = 0xFA#8 := by
  revert op
  decide

theorem fixtureL1_of_unlisted (h : isFixtureOpcode op = false) : fixtureL1 op = .ill op := by
  revert op
  decide

end

/-! ### The bytes of FT's instructions -/

theorem operandL3_bytes (w : Word) : operandL3 (lowByte w) (highByte w) = w := concat_bytes w

theorem encode_fixtureL1 (op : Byte) : encode (fixtureL1 op) = some [op] := by
  unfold fixtureL1
  repeat' split
  all_goals
    subst_vars
    rfl

theorem encode_fixtureL2 (op imm8 : Byte) : encode (fixtureL2 op imm8) = some [op, imm8] := by
  unfold fixtureL2
  repeat' split
  all_goals
    subst_vars
    rfl

theorem encode_fixtureL3 (op lo hi : Byte) : encode (fixtureL3 op lo hi) = some [op, lo, hi] := by
  unfold fixtureL3
  repeat' split
  all_goals
    subst_vars
    simp [encode, operandL3]

section
variable (t : Table) (op : Byte)

/-! ### Under a table that binds the opcode as FT does -/

theorem Table.bindsFixture_length (h : t.bindsFixture op = true) :
    (t.lookup op).length = (fixtureTable.lookup op).length :=
  ((t.bindsFixture_iff op).mp h).1

theorem wellFormed_fixtureL1 (hb : t.bindsFixture op = true) (hl : (fixtureTable.lookup op).length = 1) :
    (fixtureL1 op).wellFormed t = true := by
  rcases fixtureTable_opcodes_of_length1 op hl with hill | rfl | rfl | rfl | rfl | rfl | rfl
  · simp [fixtureL1_of_unlisted op hill, Instr.wellFormed, hb, hill]
  all_goals exact hb

theorem wellFormed_fixtureL2 (imm8 : Byte) (hb : t.bindsFixture op = true)
    (hl : (fixtureTable.lookup op).length = 2) : (fixtureL2 op imm8).wellFormed t = true := by
  rcases fixtureTable_opcodes_of_length2 op hl with rfl | rfl <;> exact hb

theorem wellFormed_fixtureL3 (lo hi : Byte) (hb : t.bindsFixture op = true)
    (hl : (fixtureTable.lookup op).length = 3) : (fixtureL3 op lo hi).wellFormed t = true := by
  rcases fixtureTable_opcodes_of_length3 op hl with rfl | rfl | rfl | rfl <;> exact hb

theorem decode_fixtureL1 (rest : List Byte) (hb : t.bindsFixture op = true)
    (hl : (fixtureTable.lookup op).length = 1) : decode t (op :: rest) = .ok (fixtureL1 op, rest) := by
  rw [decode_length1 t op rest ((t.bindsFixture_length op hb).trans hl), if_pos hb]

theorem decode_fixtureL2 (imm8 : Byte) (rest : List Byte) (hb : t.bindsFixture op = true)
    (hl : (fixtureTable.lookup op).length = 2) :
    decode t (op :: imm8 :: rest) = .ok (fixtureL2 op imm8, rest) := by
  rw [decode_length2 t op rest imm8 ((t.bindsFixture_length op hb).trans hl), if_pos hb]

/-- The two operand bytes are those of a 16-bit value, low byte first. -/
theorem decode_fixtureL3 (w : Word) (rest : List Byte) (hb : t.bindsFixture op = true)
    (hl : (fixtureTable.lookup op).length = 3) :
    decode t (op :: lowByte w :: highByte w :: rest) = .ok (fixtureL3 op (lowByte w) (highByte w), rest) := by
  rw [decode_length3 t op rest _ _ ((t.bindsFixture_length op hb).trans hl), if_pos hb]

/-! ### Under a table that does not -/

theorem Table.bindsClass_iff (n : Nat) :
    t.bindsClass op n = true ↔ (t.lookup op).length = n ∧ t.bindsFixture op = false := by
  simp [Table.bindsClass]

theorem decode_opL1 (rest : List Byte) (h : t.bindsClass op 1 = true) :
    decode t (op :: rest) = .ok (.opL1 op, rest) := by
  obtain ⟨hl, hb⟩ := (t.bindsClass_iff op 1).mp h
  simp [decode_length1 t op rest hl, hb]

theorem decode_opL2 (imm8 : Byte) (rest : List Byte) (h : t.bindsClass op 2 = true) :
    decode t (op :: imm8 :: rest) = .ok (.opL2 op imm8, rest) := by
  obtain ⟨hl, hb⟩ := (t.bindsClass_iff op 2).mp h
  simp [decode_length2 t op rest imm8 hl, hb]

theorem decode_opL3 (lo hi : Byte) (rest : List Byte) (h : t.bindsClass op 3 = true) :
    decode t (op :: lo :: hi :: rest) = .ok (.opL3 op lo hi, rest) := by
  obtain ⟨hl, hb⟩ := (t.bindsClass_iff op 3).mp h
  simp [decode_length3 t op rest lo hi hl, hb]

end

/-- Settles O4, by cases on the instruction: a class by its length, a fixture row by FT's length, and a dispatch has no
bytes. -/
theorem decodeOfEncode : Obligations.DecodeOfEncode := by
  intro t i bs rest hwf henc
  cases i with
  | int0 | int1 | int2 | int3 | int4 => cases henc
  | opL1 op =>
    cases henc
    exact decode_opL1 t op rest hwf
  | opL2 op imm8 =>
    cases henc
    exact decode_opL2 t op imm8 rest hwf
  | opL3 op lo hi =>
    cases henc
    exact decode_opL3 t op lo hi rest hwf
  | nop | incA | halt | reti | di | ei =>
    cases henc
    exact decode_fixtureL1 t _ rest hwf rfl
  | ill op =>
    cases henc
    obtain ⟨hb, hill⟩ : t.bindsFixture op = true ∧ isFixtureOpcode op = false := by simpa [Instr.wellFormed] using hwf
    rw [← fixtureL1_of_unlisted op hill]
    exact decode_fixtureL1 t op rest hb (by rw [fixtureTable_lookup_ill op hill])
  | jrE8 imm8 | ldAD8 imm8 =>
    cases henc
    exact decode_fixtureL2 t _ imm8 rest hwf rfl
  | ldSpD16 w | jpA16 w | ldA16A w | ldAA16 w =>
    cases henc
    refine (decode_fixtureL3 t _ w rest hwf rfl).trans ?_
    simp [fixtureL3, operandL3_bytes]

/-! ### What the decoder reads -/

/-- Everything the decoder can answer: an opcode of length 1, 2 or 3 with its operand bytes, under FT's name or its class's
(30 R54). -/
theorem decode_cases (t : Table) (bs rest : List Byte) (i : Instr) (h : decode t bs = .ok (i, rest)) :
    ∃ op,
      ((t.lookup op).length = 1 ∧ bs = op :: rest ∧ i = if t.bindsFixture op then fixtureL1 op else .opL1 op) ∨
      ((t.lookup op).length = 2 ∧ ∃ imm8, bs = op :: imm8 :: rest ∧
        i = if t.bindsFixture op then fixtureL2 op imm8 else .opL2 op imm8) ∨
      ((t.lookup op).length = 3 ∧ ∃ lo hi, bs = op :: lo :: hi :: rest ∧
        i = if t.bindsFixture op then fixtureL3 op lo hi else .opL3 op lo hi) := by
  unfold decode at h
  split at h
  · cases h
  · rename_i op operands
    refine ⟨op, ?_⟩
    split at h
    case h_1 hl =>
      cases h
      exact .inl ⟨hl, rfl, rfl⟩
    case h_2 imm8 _ hl =>
      cases h
      exact .inr (.inl ⟨hl, imm8, rfl, rfl⟩)
    case h_3 lo hi _ hl =>
      cases h
      exact .inr (.inr ⟨hl, lo, hi, rfl, rfl⟩)
    all_goals cases h

section
variable (t : Table) (op : Byte)

theorem wellFormed_and_encode_of_length1 (hl : (t.lookup op).length = 1) :
    (if t.bindsFixture op then fixtureL1 op else .opL1 op).wellFormed t = true ∧
      encode (if t.bindsFixture op then fixtureL1 op else .opL1 op) = some [op] := by
  split_ifs with hb
  · exact ⟨wellFormed_fixtureL1 t op hb ((t.bindsFixture_length op hb).symm.trans hl), encode_fixtureL1 op⟩
  · exact ⟨(t.bindsClass_iff op 1).mpr ⟨hl, Bool.eq_false_iff.mpr hb⟩, rfl⟩

theorem wellFormed_and_encode_of_length2 (imm8 : Byte) (hl : (t.lookup op).length = 2) :
    (if t.bindsFixture op then fixtureL2 op imm8 else .opL2 op imm8).wellFormed t = true ∧
      encode (if t.bindsFixture op then fixtureL2 op imm8 else .opL2 op imm8) = some [op, imm8] := by
  split_ifs with hb
  · exact ⟨wellFormed_fixtureL2 t op imm8 hb ((t.bindsFixture_length op hb).symm.trans hl), encode_fixtureL2 op imm8⟩
  · exact ⟨(t.bindsClass_iff op 2).mpr ⟨hl, Bool.eq_false_iff.mpr hb⟩, rfl⟩

theorem wellFormed_and_encode_of_length3 (lo hi : Byte) (hl : (t.lookup op).length = 3) :
    (if t.bindsFixture op then fixtureL3 op lo hi else .opL3 op lo hi).wellFormed t = true ∧
      encode (if t.bindsFixture op then fixtureL3 op lo hi else .opL3 op lo hi) = some [op, lo, hi] := by
  split_ifs with hb
  · exact ⟨wellFormed_fixtureL3 t op lo hi hb ((t.bindsFixture_length op hb).symm.trans hl), encode_fixtureL3 op lo hi⟩
  · exact ⟨(t.bindsClass_iff op 3).mpr ⟨hl, Bool.eq_false_iff.mpr hb⟩, rfl⟩

end

/-- Settles O5, by the length of the opcode read. -/
theorem encodeOfDecode : Obligations.EncodeOfDecode := by
  intro t bs rest i h
  obtain ⟨op, ⟨hl, rfl, rfl⟩ | ⟨hl, imm8, rfl, rfl⟩ | ⟨hl, lo, hi, rfl, rfl⟩⟩ := decode_cases t bs rest i h
  · obtain ⟨hwf, henc⟩ := wellFormed_and_encode_of_length1 t op hl
    exact ⟨hwf, op, [], henc, rfl, hl.symm⟩
  · obtain ⟨hwf, henc⟩ := wellFormed_and_encode_of_length2 t op imm8 hl
    exact ⟨hwf, op, [imm8], henc, rfl, hl.symm⟩
  · obtain ⟨hwf, henc⟩ := wellFormed_and_encode_of_length3 t op lo hi hl
    exact ⟨hwf, op, [lo, hi], henc, rfl, hl.symm⟩

/-- Settles O6: the contract leaves the lengths 1, 2 and 3, and two bytes are operand enough for each. -/
theorem decodeIsTotal : Obligations.DecodeIsTotal := by
  intro t dmax op b c rest hok
  rcases Descriptor.length_cases dmax _ ((Table.ok_iff dmax t).mp hok op) with hl | hl | hl
  · exact ⟨_, _, decode_length1 t op _ hl⟩
  · exact ⟨_, _, decode_length2 t op _ b hl⟩
  · exact ⟨_, _, decode_length3 t op _ b c hl⟩

/-- Settles O7, by running the decoder on each word. -/
theorem decodeWords : Obligations.DecodeWords := by
  unfold Obligations.DecodeWords
  decide

/-! ### Operand values -/

theorem zext16_toNat (b : Byte) : (zext16 b).toNat = b.toNat :=
  BitVec.toNat_setWidth_of_le (by decide)

theorem concat_toNat (hi lo : Byte) : (concat hi lo).toNat = hi.toNat * 256 + lo.toNat := by
  rw [concat, BitVec.toNat_append, ← Nat.shiftLeft_add_eq_or_of_lt lo.isLt, Nat.shiftLeft_eq]

/-- Settles O9, by the value of a zero-extended byte and of two concatenated bytes. -/
theorem operandValues : Obligations.OperandValues :=
  ⟨rfl, zext16_toNat, fun lo hi => concat_toNat hi lo⟩

end Sys2Proof
end

section
/-! SUPPORT. Fetch and execute: a decoded instruction is its format class under the bound table, the two calls of `cycle` that
fetch, the step as `cycle` and then `handleInterrupts`, and the timing of an instruction from a count of zero (40 R65-R81). -/

namespace Sys2Proof.Machine

/-! ### The format classes (40 R75-R77) -/

/-- Settles O10: each class is one completed instruction, with its own length. -/
theorem formatClassesComplete : Obligations.FormatClassesComplete :=
  ⟨fun s _ => congrArg Host.Outcome.next (completeInstr_eq _ _ 1 _ s),
    fun s _ _ => congrArg Host.Outcome.next (completeInstr_eq _ _ 2 _ s),
    fun s _ _ _ => congrArg Host.Outcome.next (completeInstr_eq _ _ 3 _ s)⟩

section
variable (op : Byte) (s : State)

/-- Whether an opcode without operand is read as FT's mnemonic or as its class makes no difference (log 16). -/
theorem exec_decoded_length1 (hl : (s.cfg.itab.lookup op).length = 1) :
    exec (if s.cfg.itab.bindsFixture op then fixtureL1 op else .opL1 op) s = execOpL1 op s := by
  split
  · rename_i hb
    obtain ⟨-, -, heffect, hadvances⟩ := (s.cfg.itab.bindsFixture_iff op).mp hb
    rcases fixtureTable_opcodes_of_length1 op ((s.cfg.itab.bindsFixture_length op hb).symm.trans hl) with
      hill | rfl | rfl | rfl | rfl | rfl | rfl
    · rw [fixtureTable_lookup_ill op hill] at heffect hadvances
      rw [fixtureL1_of_unlisted op hill]
      simp [exec, execOpL1, execIll, heffect, hadvances, effectOf]
    all_goals
      simp [exec, execOpL1, fixtureL1, execNop, execIncA, execHalt, execReti, execDi, execEi, heffect, hadvances, effectOf]
  · rfl

/-- The same of an opcode with a one-byte operand. -/
theorem exec_decoded_length2 (imm8 : Byte) :
    exec (if s.cfg.itab.bindsFixture op then fixtureL2 op imm8 else .opL2 op imm8) s = execOpL2 op imm8 s := by
  split
  · rename_i hb
    obtain ⟨-, -, heffect, hadvances⟩ := (s.cfg.itab.bindsFixture_iff op).mp hb
    unfold fixtureL2
    repeat' split
    all_goals
      subst_vars
      simp [exec, execOpL2, execJrE8, execLdAD8, heffect, hadvances, effectOf]
  · rfl

end

/-- Settles O21: the bytes of a well-formed instruction decode to it, and what an opcode of each length decodes to does what
its class does. -/
theorem fixtureInstructionsAreTheirClass : Obligations.FixtureInstructionsAreTheirClass := by
  intro i bs s hwf henc
  have hdec := decodeOfEncode s.cfg.itab i bs [] hwf henc
  rw [List.append_nil] at hdec
  unfold classOf
  obtain ⟨op, ⟨hl, rfl, rfl⟩ | ⟨-, imm8, rfl, rfl⟩ | ⟨-, lo, hi, rfl, rfl⟩⟩ := decode_cases _ _ _ _ hdec
  · rw [henc]
    exact exec_decoded_length1 op s hl
  · rw [henc]
    exact exec_decoded_length2 op s imm8
  · rw [henc]
    exact exec_decoded_length3 op lo hi s

/-! ### `cycle` without completion (40 R79, R81) -/

theorem cycle_of_gated (s : State) (hg : s.gated = true) : cycle s = .next s := if_pos hg

/-- A call that is not gated and does not reach the duration fetches the opcode and counts. -/
theorem cycle_of_in_flight (s : State) (hg : s.gated = false)
    (hd : s.elapsedCycles + 1 < (s.cfg.itab.lookup s.opcodeAnswer).duration) : cycle s = .next s.fetchOpcode.2 := by
  have hop : s.fetchOpcode.1 = s.opcodeAnswer := (s.fetch_eq 0).1
  have hcount : s.fetchOpcode.2.elapsedCycles = s.elapsedCycles + 1 := by rw [State.fetchOpcode_eq]
  have hg' : ¬ (s.halted && s.cfg.haltGatesCycle) = true := by simpa [State.gated] using hg
  simp only [cycle, if_neg hg', hop, hcount, if_pos hd]

/-- Settles O34: the state in which the call ends is that of the opcode fetch. -/
theorem inFlightTick : Obligations.InFlightTick := by
  intro s hg hd
  rw [cycle_of_in_flight s hg hd, State.fetchOpcode_eq]

theorem State.gated_of_no_gate (s : State) (h : s.cfg.haltGatesCycle = false) : s.gated = false := by
  simp [State.gated, h]

/-- Settles O36: without the gate the in-flight call is the same for either value of `halted`, which it keeps. -/
theorem haltGate : Obligations.HaltGate := by
  refine ⟨fun s hh hc => cycle_of_gated s (by simp [State.gated, hh, hc]), fun s hc hd => ?_⟩
  have hflipped := inFlightTick { s with halted := !s.halted } (State.gated_of_no_gate _ hc) hd
  exact ⟨_, inFlightTick s (s.gated_of_no_gate hc) hd, rfl, rfl, hflipped⟩

/-! ### `cycle` with completion (40 R70-R73) -/

/-- Three bytes decode, by the length of the first, to the instruction of as many of them (30 R54). -/
theorem decode_three_bytes_cases (t : Table) (op lo hi : Byte) (i : Instr) (rest : List Byte)
    (h : decode t [op, lo, hi] = .ok (i, rest)) :
    ((t.lookup op).length = 1 ∧ i = if t.bindsFixture op then fixtureL1 op else .opL1 op) ∨
    ((t.lookup op).length = 2 ∧ i = if t.bindsFixture op then fixtureL2 op lo else .opL2 op lo) ∨
    ((t.lookup op).length = 3 ∧ i = if t.bindsFixture op then fixtureL3 op lo hi else .opL3 op lo hi) := by
  obtain ⟨_, ⟨hl, hbs, hi⟩ | ⟨hl, _, hbs, hi⟩ | ⟨hl, _, _, hbs, hi⟩⟩ := decode_cases _ _ _ _ h
  all_goals cases hbs
  · exact .inl ⟨hl, hi⟩
  · exact .inr (.inl ⟨hl, hi⟩)
  · exact .inr (.inr ⟨hl, hi⟩)

section
variable (s : State) (i : Instr) (rest : List Byte)
  (h : decode s.cfg.itab [s.opcodeAnswer, s.lowAnswer, s.highAnswer] = .ok (i, rest))
include h

/-- The instruction that the Bus's answers decode to is the one that the bytes of its length decode to, the only bytes a
completion reads (30 R54). -/
theorem completionTick_of_decode :
    completionTick s.opcodeAnswer s.fetchOpcode.2 =
      exec i (s.answered (s.cfg.itab.lookup s.opcodeAnswer).length) := by
  have hcfg : s.fetchOpcode.2.cfg = s.cfg := by rw [State.fetchOpcode_eq]
  simp only [completionTick, hcfg, (s.fetch_eq _).2]
  obtain ⟨hl, rfl⟩ | ⟨hl, rfl⟩ | ⟨hl, rfl⟩ := decode_three_bytes_cases _ _ _ _ _ _ h
  · simp [hl, decode_length1 _ _ _ hl]
  · simp [hl, decode_length2 _ _ _ _ hl]
  · simp [hl, decode_length3 _ _ _ _ _ hl]

/-- A decoded instruction completes as the descriptor of its opcode says, under FT's name or its class's (40 R71-R73). -/
theorem exec_of_decode (t : State) (ht : t.cfg = s.cfg) :
    exec i t =
      let d := s.cfg.itab.lookup s.opcodeAnswer
      .next (completeInstr (effectOf d.effect (s.operandAnswer d.length)) (s.operandAnswer d.length) d.length
        d.advancesProgramCounter t) := by
  rw [← ht] at h ⊢
  obtain ⟨hl, rfl⟩ | ⟨hl, rfl⟩ | ⟨hl, rfl⟩ := decode_three_bytes_cases _ _ _ _ _ _ h
  all_goals simp only [hl]
  · exact exec_decoded_length1 _ t hl
  · exact exec_decoded_length2 _ t _
  · exact exec_decoded_length3 _ _ _ t

theorem cycle_of_decode (hg : s.gated = false)
    (hd : (s.cfg.itab.lookup s.opcodeAnswer).duration ≤ s.elapsedCycles + 1) :
    cycle s = exec i (s.answered (s.cfg.itab.lookup s.opcodeAnswer).length) :=
  (cycle_of_duration_reached s hg hd).trans (completionTick_of_decode s i rest h)
end

theorem State.answered_cfg (s : State) (n : Nat) : (s.answered n).cfg = s.cfg := by
  simp only [State.answered, State.afterFetch, State.afterRead]
  repeat' split
  all_goals rfl

/-- Settles O57: under the contract the answers decode, and what they decode to completes as the descriptor says. -/
theorem completionTickOnAnyBus : Obligations.CompletionTickOnAnyBus := by
  intro s hg hok d hd u
  obtain ⟨i, rest, hdec⟩ := decodeIsTotal _ _ s.opcodeAnswer s.lowAnswer s.highAnswer [] hok
  rw [cycle_of_decode s i rest hdec hg hd, exec_of_decode s i rest hdec _ (s.answered_cfg _)]
  exact congrArg Host.Outcome.next (completeInstr_eq _ _ _ _ _)

/-! ### Plain memory (20 R40) -/

section
variable (s : State)

theorem State.opcodeAnswer_plain (h : s.plainAt s.pc = true) : s.opcodeAnswer = s.byteAt s.pc := s.busValue_plain _ h

theorem State.lowAnswer_plain (h : s.plainAt s.pc = true) (hlow : s.plainAt (s.pc + 1) = true) :
    s.lowAnswer = s.byteAt (s.pc + 1) := by
  rw [State.lowAnswer, s.afterRead_plain _ h, s.busValue_plain _ hlow]

theorem State.plainAt_pc_of_plainFetch (n : Nat) (h : s.plainFetch n = true) : s.plainAt s.pc = true := by
  simp only [State.plainFetch, Bool.and_eq_true] at h
  exact h.1.1

theorem State.lookup_opcodeAnswer_plain (h : s.plainAt s.pc = true) :
    s.cfg.itab.lookup s.opcodeAnswer = s.descriptorAt := by
  rw [s.opcodeAnswer_plain h]
  rfl

theorem State.plainFetch_length2_iff :
    s.plainFetch 2 = true ↔ s.plainAt s.pc = true ∧ s.plainAt (s.pc + 1) = true := by
  simp [State.plainFetch]

section
variable (n : Nat) (h : s.plainFetch n = true)
include h

/-- On plain memory the Bus's answers form the operand in memory. -/
theorem State.operandAnswer_plain : s.operandAnswer n = s.operandAt n := by
  simp only [State.operandAnswer, State.operandAt]
  split_ifs with h2 h3
  · subst h2
    obtain ⟨hpc, hlow⟩ := s.plainFetch_length2_iff.mp h
    rw [s.lowAnswer_plain hpc hlow]
  · subst h3
    obtain ⟨-, vlow, vhigh⟩ := s.answers_length3_plain h
    rw [vlow, vhigh]
  · rfl

/-- On plain memory the reads of an instruction change nothing but the log. -/
theorem State.answered_plain : s.answered n = s.fetched n := by
  have hpc := s.plainAt_pc_of_plainFetch n h
  have vop := s.opcodeAnswer_plain hpc
  by_cases h3 : n = 3
  · subst h3
    exact s.answered_length3_plain h
  by_cases h2 : n = 2
  · subst h2
    obtain ⟨-, hlow⟩ := s.plainFetch_length2_iff.mp h
    have hafter : s.afterFetch 2 = s := by
      show (s.afterRead s.pc).afterRead (s.pc + 1) = s
      rw [s.afterRead_plain _ hpc, s.afterRead_plain _ hlow]
    simp [State.answered, State.fetched, hafter, State.answerPorts, State.opcodePorts, State.operandPorts, vop,
      s.lowAnswer_plain hpc hlow]
  · have hafter : s.afterFetch n = s := by
      rw [State.afterFetch, if_neg h2, if_neg h3, s.afterRead_plain _ hpc]
    simp [State.answered, State.fetched, hafter, State.answerPorts, State.opcodePorts, State.operandPorts, vop, h2, h3]
end

theorem State.plainFetch_of_length3 (n : Nat) (h : s.plainFetch 3 = true) : s.plainFetch n = true := by
  obtain ⟨hop, hlow, hhigh⟩ := s.plainFetch_length3_iff.mp h
  simp only [State.plainFetch, hop, hlow, hhigh, Bool.or_true, Bool.and_true]
end

/-- Settles O35: the completion call on any Bus, where the answers are the bytes held. (`completionTick` names the model's
own function.) -/
theorem completionTickOnPlainMemory : Obligations.CompletionTick := by
  intro s hg hok d hplain hd u
  have hdesc : s.cfg.itab.lookup s.opcodeAnswer = d :=
    s.lookup_opcodeAnswer_plain (s.plainAt_pc_of_plainFetch _ hplain)
  have hbus := completionTickOnAnyBus s hg hok (by rwa [hdesc])
  rw [hdesc, s.operandAnswer_plain _ hplain, s.answered_plain _ hplain] at hbus
  exact hbus

/-! ### The tick (40 R65) -/

/-- For a table within the contract a clock period is `cycle`, then `handleInterrupts`, which both answer, with the
environment at the three boundaries (20 R48). -/
theorem clockTick_is_cycle_then_handleInterrupts (before between after : List EnvMove) (s : State)
    (hok : s.tableOk = true) :
    ∃ c d, cycle (State.environment { s with ports := [] } before) = .next c ∧
      handleInterrupts (c.environment between) = .next d ∧
      clockTick before between after s = .next (d.environment after) := by
  obtain ⟨c, hc⟩ := cycle_next ((s.setPorts []).environment before) (by rwa [State.environment_tableOk])
  obtain ⟨d, hd⟩ := handleInterrupts_next (c.environment between)
  refine ⟨c, d, hc, hd, ?_⟩
  rw [clockTick_eq_tick _ _ _ s hok]
  simp only [tick, hc, andThen, hd]

/-- Settles O39: the step takes the clock period off the queue and runs it. -/
theorem tickIsCycleThenHandleInterrupts : Obligations.TickIsCycleThenHandleInterrupts := by
  intro s before between after rest hok hinputs
  rw [step_of_input s _ rest hinputs]
  exact clockTick_is_cycle_then_handleInterrupts before between after (s.setInputs rest) hok

/-- Settles O59: with the queue empty the step is a clock period without a move of the environment. -/
theorem silentTickIsCycleThenHandleInterrupts : Obligations.SilentTickIsCycleThenHandleInterrupts := by
  intro s hok hinputs
  rw [step_of_no_inputs s hinputs]
  exact clockTick_is_cycle_then_handleInterrupts [] [] [] s hok

theorem step_silent (s : State) (hok : s.tableOk = true) (hinputs : s.inputs = []) :
    step s = andThen (cycle { s with ports := [] }) handleInterrupts := by
  obtain ⟨c, d, hc, hd, hstep⟩ := silentTickIsCycleThenHandleInterrupts s hok hinputs
  rw [hstep, hc]
  exact hd.symm

/-- Settles O58: the emptied port log changes no answer, so the step's `cycle` call runs what they decode to. -/
theorem stepRunsWhatTheBusAnswers : Obligations.StepRunsWhatTheBusAnswers := by
  intro s i rest hinputs hok hg hdec _ hd
  rw [step_silent s hok hinputs, cycle_of_decode { s with ports := [] } i rest hdec hg hd]
  rfl

/-- Settles O38: the step on any Bus, where the answers are the three bytes held. -/
theorem stepRunsTheDecodedInstruction : Obligations.StepRunsTheDecodedInstruction := by
  intro s i rest hinputs hok hg hplain hdec hwf hd
  obtain ⟨vop, vlow, vhigh⟩ := s.answers_length3_plain hplain
  have hdesc := s.lookup_opcodeAnswer_plain (s.plainAt_pc_of_plainFetch 3 hplain)
  have hbus := stepRunsWhatTheBusAnswers s i rest hinputs hok hg (by rwa [vop, vlow, vhigh]) hwf (by rwa [hdesc])
  have hfetched := State.answered_plain { s with ports := [] } s.descriptorAt.length
    (s.plainFetch_of_length3 _ hplain)
  rwa [hdesc, hfetched] at hbus

/-! ### The timing of an instruction (40 R78) -/

/-- Without a dispatch `handleInterrupts` does nothing but sample the controller, if that (60 R114, R115). -/
theorem handleInterrupts_of_noDispatch (s : State) (h : s.noDispatch = true) :
    ∃ samples, handleInterrupts s = .next { s with ports := s.ports ++ samples } ∧
      ∀ operand, PortEvent.effect operand ∉ samples := by
  by_cases hi : s.ime = false
  · exact ⟨[], by rw [handleInterrupts_eq, if_pos hi, List.append_nil], by simp⟩
  · have hguard : guardPasses s.cfg.irqGuard s.requestedFlags s.enabledMask = false := by
      simpa [State.noDispatch, hi] using h
    exact ⟨[.readIF s.requestedFlags, .readIE s.enabledMask],
      by rw [handleInterrupts_eq, if_neg hi, if_pos hguard]; rfl, by simp⟩

/-- An in-flight call whose opcode is in plain memory changes the count and the log only (40 R79). -/
theorem cycle_in_flight_plain (s : State) (hg : s.gated = false) (hplain : s.plainAt s.pc = true)
    (hd : s.elapsedCycles + 1 < s.descriptorAt.duration) : cycle s = .next (s.fetched 0) := by
  rw [cycle_of_in_flight s hg (by rwa [s.lookup_opcodeAnswer_plain hplain]), s.fetchOpcode_state,
    s.answered_plain 0 (by simp [State.plainFetch, hplain])]

section
variable (s : State) (hinputs : s.inputs = []) (hok : s.tableOk = true) (hg : s.gated = false)
include hinputs hok hg

/-- A silent tick in flight, its opcode in plain memory and no dispatch due, changes the count and the log only. -/
theorem step_in_flight (hnone : s.noDispatch = true) (hplain : s.plainAt s.pc = true)
    (hd : s.elapsedCycles + 1 < s.descriptorAt.duration) :
    ∃ ports, step s = .next { s with elapsedCycles := s.elapsedCycles + 1, ports := ports } ∧
      ∀ operand, PortEvent.effect operand ∉ ports := by
  obtain ⟨samples, hsamples, hno⟩ := handleInterrupts_of_noDispatch (State.fetched { s with ports := [] } 0) hnone
  refine ⟨s.opcodePorts ++ samples, ?_, by simpa [State.opcodePorts] using hno⟩
  rw [step_silent s hok hinputs, cycle_in_flight_plain { s with ports := [] } hg hplain hd]
  exact hsamples

/-- From a count of zero, `n` ticks short of the duration leave a count of `n`. -/
theorem run_in_flight (hzero : s.elapsedCycles = 0) (hnone : s.noDispatch = true) (hplain : s.plainAt s.pc = true)
    (n : Nat) (hn : n < s.descriptorAt.duration) :
    ∃ ports, core.run n s = .next { s with elapsedCycles := n, ports := ports } ∧
      (0 < n → ∀ operand, PortEvent.effect operand ∉ ports) := by
  induction n with
  | zero => exact ⟨s.ports, congrArg Host.Outcome.next (by rw [← hzero]), by simp⟩
  | succ n ih =>
    obtain ⟨earlier, hrun, -⟩ := ih (by omega)
    obtain ⟨ports, hstep, hno⟩ :=
      step_in_flight { s with elapsedCycles := n, ports := earlier } hinputs hok hg hnone hplain hn
    refine ⟨ports, ?_, fun _ => hno⟩
    rw [core_run_last, hrun]
    exact hstep
end

/-- Settles O40: the run up to the last tick, by induction on the ticks, then the completion call of that tick. -/
theorem timingProperty : Obligations.TimingProperty := by
  intro s hinputs hzero hok hg hnone d hplain
  have hpc := s.plainAt_pc_of_plainFetch _ hplain
  have hrun := run_in_flight s hinputs hok hg hzero hnone hpc
  refine ⟨fun n hpos hn => ?_, ?_⟩
  · obtain ⟨ports, hn, hno⟩ := hrun n hn
    exact ⟨ports, hn, hno hpos⟩
  · intro u
    obtain ⟨-, -, hpos, -⟩ := (Descriptor.ok_iff _ _).mp ((Table.ok_iff _ _).mp hok (s.byteAt s.pc))
    obtain ⟨m, hm⟩ : ∃ m, d.duration = m + 1 := Nat.exists_eq_add_of_le' hpos
    obtain ⟨ports, hlast, -⟩ := hrun m (by show m < d.duration; omega)
    have hcycle := completionTickOnPlainMemory { s with elapsedCycles := m, ports := [] } hg hok hplain hm.le
    rw [hm, core_run_last, hlast]
    show step { s with elapsedCycles := m, ports := ports } = _
    rw [step_silent { s with elapsedCycles := m, ports := ports } hok hinputs, hcycle]
    simp only [u, hm]
    rfl

end Sys2Proof.Machine
end

section
/-! SUPPORT. The effect interface: what no effect can do, the two forms of a conditional jump, a call and the return that
undoes it, and the contract of the Instruction Table (41 R91-R93, R97, R98, R100-R102, R106). -/

namespace Sys2Proof.Machine

/-! ### The reach of an effect (41 R93) -/

/-- From `s` to `t` the mapping stays and the log grows, and the entries it gained account for every byte, and for each
controller register, that differs. -/
def State.accountsFor (s t : State) : Prop :=
  t.busMap = s.busMap ∧ ∃ later, t.ports = s.ports ++ later ∧
    (∀ b : Word, (∀ v, PortEvent.busWrite b v ∉ later) → t.byteAt b = s.byteAt b) ∧
    ((∀ a v, PortEvent.busWrite a v ∈ later → s.kindAt a ≠ .intRequest) → t.requestedFlags = s.requestedFlags) ∧
    ((∀ a v, PortEvent.busWrite a v ∈ later → s.kindAt a ≠ .intEnable) → t.enabledMask = s.enabledMask)

theorem State.accountsFor_refl (s : State) : s.accountsFor s :=
  ⟨rfl, [], (List.append_nil _).symm, fun _ _ => rfl, fun _ => rfl, fun _ => rfl⟩

section
variable (s t : State) (h : s.accountsFor t)
include h

theorem State.accountsFor_put (w : FieldWrite) : s.accountsFor (t.put w) := by
  simpa [State.accountsFor, State.byteAt] using h

/-- A read adds itself to the log, and changes neither memory nor the controller. -/
theorem State.accountsFor_busRead (a : Word) : s.accountsFor (t.busRead a).2 := by
  obtain ⟨hmap, later, hports, hbyte, hrequest, henable⟩ := h
  refine ⟨(t.busRead_busMap a).trans hmap, later ++ [.busRead a (t.busValue a)], by simp [hports], fun b hb => ?_,
    fun hk => ?_, fun hk => ?_⟩
  · rw [State.byteAt, State.busRead_mem]
    exact hbyte b fun v hv => hb v (List.mem_append_left _ hv)
  · rw [State.busRead_requestedFlags]
    exact hrequest fun b v hv => hk b v (List.mem_append_left _ hv)
  · rw [State.busRead_enabledMask]
    exact henable fun b v hv => hk b v (List.mem_append_left _ hv)

/-- A write adds itself to the log, and changes at most the byte, or the register, at its own address. -/
theorem State.accountsFor_busWrite (a : Word) (v : Byte) : s.accountsFor (t.busWrite a v) := by
  obtain ⟨hmap, later, hports, hbyte, hrequest, henable⟩ := h
  have hkind : t.kindAt a = s.kindAt a := by rw [State.kindAt, hmap, State.kindAt]
  have hself : PortEvent.busWrite a v ∈ later ++ [.busWrite a v] := List.mem_append_right _ List.mem_cons_self
  refine ⟨(t.busWrite_busMap a v).trans hmap, later ++ [.busWrite a v], by simp [hports], fun b hb => ?_,
    fun hk => ?_, fun hk => ?_⟩
  · have hba : b ≠ a := fun e => hb v (e ▸ hself)
    rw [t.busWrite_byteAt_other a b v (.inl hba)]
    exact hbyte b fun w hw => hb w (List.mem_append_left _ hw)
  · rw [State.busWrite_requestedFlags, hkind, if_neg (hk a v hself)]
    exact hrequest fun b w hw => hk b w (List.mem_append_left _ hw)
  · rw [State.busWrite_enabledMask, hkind, if_neg (hk a v hself)]
    exact henable fun b w hw => hk b w (List.mem_append_left _ hw)
end

theorem runEffect_accountsFor (e : Effect) (s : State) : s.accountsFor (runEffect e s) :=
  runEffect_invariant s.accountsFor (fun t w h => s.accountsFor_put t h w) (fun t a h => s.accountsFor_busRead t h a)
    (fun t a v h => s.accountsFor_busWrite t h a v) e s s.accountsFor_refl

/-- Settles O11: the four primitives of an effect keep the frame, and the log accounts for what a write changes. -/
theorem effectsKeepWhatTheyMayNotTouch : Obligations.EffectsKeepWhatTheyMayNotTouch := fun e s =>
  ⟨runEffect_elapsedCycles e s, runEffect_cfg e s, runEffect_busMap e s, runEffect_inputs e s, runEffect_shape e s,
    runEffect_halted e s, (runEffect_accountsFor e s).2⟩

/-! ### The conditional jump (41 R98) -/

theorem runEffect_condJump (taken : CpuView → Bool) (length : Nat) (target : Word) (s : State) :
    runEffect (condJumpEffect taken length target) s =
      s.setPc (if taken s.view then target else s.pc + BitVec.ofNat 16 length) := rfl

theorem runEffect_condJumpAdvancing (taken : CpuView → Bool) (length : Nat) (target : Word) (s : State) :
    runEffect (condJumpAdvancingEffect taken length target) s =
      if taken s.view then s.setPc (target - BitVec.ofNat 16 length) else s := by
  simp only [condJumpAdvancingEffect, runEffect]
  split <;> rfl

/-- Settles O12: taken, the advance adds back what the flag-true form subtracted; not taken, each form adds the length. -/
theorem conditionalJumpFormsAgree : Obligations.ConditionalJumpFormsAgree := by
  intro taken length target operand s
  simp only [completeInstr_eq, runEffect_condJump, runEffect_condJumpAdvancing]
  cases taken (s.log (.effect operand)).view with
  | true =>
    have hback : target - BitVec.ofNat 16 length + BitVec.ofNat 16 length = target := BitVec.sub_add_cancel _ _
    simp only [if_true, State.setPc_pc, hback]
    rfl
  | false => rfl

/-! ### The return (41 R102) -/

/-- What the Bus answers to the read at `sp` with which a return begins. -/
def State.popLow (s : State) : Byte := s.busValue s.sp

/-- What the Bus answers to the read at `sp + 1` that follows it. -/
def State.popHigh (s : State) : Byte := (s.afterRead s.sp).busValue (s.sp + 1)

theorem State.popLow_plain (s : State) (h : s.plainAt s.sp = true) : s.popLow = s.byteAt s.sp := s.busValue_plain _ h

theorem State.popHigh_plain (s : State) (h : s.plainAt (s.sp + 1) = true) : s.popHigh = s.byteAt (s.sp + 1) :=
  (s.afterRead s.sp).busValue_plain _ h

/-- Everything a completed return does on any stack: two reads, `pc`, `sp`, `ime` if asked to, and the count. -/
theorem completeInstr_return (reenable : Bool) (operand : Word) (length : Nat) (s : State) :
    completeInstr (returnEffect reenable) operand length false s = { s with
      pc := concat s.popHigh s.popLow, sp := s.sp + 2, ime := reenable || s.ime, elapsedCycles := 0
      fresh := ((s.afterRead s.sp).afterRead (s.sp + 1)).fresh
      ports := s.ports ++ [.effect operand, .busRead s.sp s.popLow, .busRead (s.sp + 1) s.popHigh] } := by
  rw [completeInstr_eq]
  cases reenable <;>
  · simp only [returnEffect, runEffect, State.busRead_eq, State.log_ports, List.append_assoc]
    rfl

/-- Settles O20: RETI is the return that re-enables interrupts, and plain memory answers the bytes held. -/
theorem retiCompletes : Obligations.RetiCompletes := by
  intro s
  refine ⟨s.popLow, s.popHigh, _, congrArg Host.Outcome.next (completeInstr_return true operandL1 1 s), s.popLow_plain,
    s.popHigh_plain, fun hlow hhigh => ?_⟩
  rw [s.afterRead_plain _ hlow, s.afterRead_plain _ hhigh]

/-! ### The call (41 R97) -/

/-- Everything a completed call does: the push of the address of the next instruction, the jump and the count. -/
theorem completeInstr_call (length : Nat) (target operand : Word) (s : State) :
    completeInstr (callEffect length target) operand length false s =
      { ((s.log (.effect operand)).setPc (s.pc + BitVec.ofNat 16 length)).pushPc with
        pc := target, elapsedCycles := 0 } := by
  rw [completeInstr_eq]
  simp only [callEffect, runEffect, State.pushPc, State.busWrite_eq]
  rfl

/-- What a push in RAM stored is what a return pops, while memory, the mapping and `sp` stay as pushed (60 R133). -/
theorem State.pop_of_push (s t : State) (hram : s.stackInRam = true) (hmem : t.mem = s.pushPc.mem)
    (hmap : t.busMap = s.busMap) (hsp : t.sp = s.sp - 2) : concat t.popHigh t.popLow = s.pc := by
  obtain ⟨hramHigh, hramLow⟩ := s.stackInRam_iff.mp hram
  have hplain : ∀ a, s.ramAt a = true → t.plainAt a = true := fun a ha =>
    t.plainAt_of_ramAt a (by rwa [State.ramAt, State.kindAt, hmap])
  have hsp1 : t.sp + 1 = s.sp - 1 := by rw [hsp]; bv_omega
  have hlow : t.popLow = lowByte s.pc := by
    rw [t.popLow_plain (by rw [hsp]; exact hplain _ hramLow), State.byteAt, hsp, hmem]
    exact s.pushPc_byteAt_low hramLow
  have hhigh : t.popHigh = highByte s.pc := by
    rw [t.popHigh_plain (by rw [hsp1]; exact hplain _ hramHigh), State.byteAt, hsp1, hmem]
    exact s.pushPc_byteAt_high hramHigh
  rw [hlow, hhigh, concat_bytes]

/-- Settles O13: the call pushes the address of the next instruction, and the return pops what was pushed. -/
theorem returnUndoesCall : Obligations.ReturnUndoesCall := by
  intro length target operand operand' n s hram t u
  let p := (s.log (.effect operand)).setPc (s.pc + BitVec.ofNat 16 length)
  have ht : t = { p.pushPc with pc := target, elapsedCycles := 0 } := completeInstr_call length target operand s
  have hu := completeInstr_return false operand' n t
  have hsp : t.sp = s.sp - 2 := by rw [ht, p.pushPc_sp]; rfl
  have hpop : concat t.popHigh t.popLow = p.pc :=
    p.pop_of_push t hram (by rw [ht]) (by rw [ht, p.pushPc_busMap]) hsp
  refine ⟨by rw [ht], hsp, (congrArg State.pc hu).trans hpop, (congrArg State.sp hu).trans ?_,
    (congrArg State.ime hu).trans ?_, (congrArg State.regs hu).trans ?_, (congrArg State.mem hu).trans rfl⟩
  · show t.sp + 2 = s.sp
    rw [hsp, BitVec.sub_add_cancel]
  · show (false || t.ime) = s.ime
    rw [ht, p.pushPc_ime, Bool.false_or]
    rfl
  · rw [ht, p.pushPc_regs]
    rfl

/-! ### The latches (41 R100, R101) -/

/-- Completing an instruction whose effect is one assignment (40 R71-R73). -/
theorem completeInstr_put (w : FieldWrite) (operand : Word) (length : Nat) (s : State) :
    completeInstr (.put w .done) operand length true s = { s.put w with
      pc := (s.put w).pc + BitVec.ofNat 16 length, elapsedCycles := 0, ports := s.ports ++ [.effect operand] } := by
  cases w <;> rfl

/-- Settles O17: each is one assignment, to `ime` or to `halted`. -/
theorem latchInstructionsComplete : Obligations.LatchInstructionsComplete := fun s =>
  ⟨congrArg Host.Outcome.next (completeInstr_put (.ime true) operandL1 1 s),
    congrArg Host.Outcome.next (completeInstr_put (.ime false) operandL1 1 s),
    congrArg Host.Outcome.next (completeInstr_put .halt operandL1 1 s)⟩

/-! ### The contract of the table (41 R91, R92, R106) -/

/-- Settles O48: the check holds of every descriptor, and of one descriptor it says the four bounds. -/
theorem tableCheckIsExact : Obligations.TableCheckIsExact := fun t dmax =>
  (Table.ok_iff dmax t).trans (forall_congr' fun op => Descriptor.ok_iff dmax (t.lookup op))

theorem clockTick_of_bad_table (before between after : List EnvMove) (s : State) (h : s.tableOk = false) :
    clockTick before between after s = .refused .tableOutsideContract :=
  if_neg (by simpa [State.tableOk] using h)

/-- Settles O47, by cases on the queue: empty, a clock period at its head, or the reset input, which is excluded. -/
theorem badTableIsRefused : Obligations.BadTableIsRefused := by
  intro s hbad hnoReset
  cases hi : s.inputs with
  | nil =>
    rw [step_of_no_inputs s hi]
    exact clockTick_of_bad_table [] [] [] s hbad
  | cons i rest =>
    rw [step_of_input s i rest hi]
    cases i with
    | clock before between after => exact clockTick_of_bad_table before between after (s.setInputs rest) hbad
    | reset => exact absurd hi (hnoReset rest)

end Sys2Proof.Machine
end

section
/-! SUPPORT. Which source a dispatch is selected for: the bits of the controller registers, the scan of the dispatch table and
the decoder of a request pattern (60 R119, R121-R125, 30 R60). -/

namespace Sys2Proof

/-! ### The bits of the two registers (10 R20) -/

theorem IrqSource.bit_lt (k : IrqSource) : k.bit < 5 := by cases k <;> decide

/-- A statement about every source is one about the five. -/
theorem IrqSource.forall_iff (P : IrqSource → Prop) :
    (∀ k, P k) ↔ P .videoBlank ∧ P .displayStatus ∧ P .timer ∧ P .serial ∧ P .joypad :=
  ⟨fun h => ⟨h _, h _, h _, h _, h _⟩, fun ⟨h0, h1, h2, h3, h4⟩ k => by cases k <;> assumption⟩

theorem IrqSource.mask_getLsbD (k : IrqSource) (n : Nat) : k.mask.getLsbD n = decide (n = k.bit) := by
  have hk : k.bit < 8 := Nat.lt_trans k.bit_lt (by decide)
  refine (BitVec.getLsbD_twoPow k.bit n).trans ?_
  simp [hk, eq_comm]

theorem significant_getLsbD (n : Nat) : significant.getLsbD n = decide (n < 5) := by
  by_cases hn : n < 8
  · revert n
    decide
  · rw [BitVec.getLsbD_of_ge _ _ (by omega), decide_eq_false (by omega)]

theorem pendingEnabled_getLsbD (rf em : Byte) (n : Nat) :
    (pendingEnabled rf em).getLsbD n = (rf.getLsbD n && em.getLsbD n && decide (n < 5)) := by
  simp only [pendingEnabled, BitVec.getLsbD_and, significant_getLsbD]

theorem pendingEnabled_getLsbD_bit (rf em : Byte) (k : IrqSource) :
    (pendingEnabled rf em).getLsbD k.bit = (rf.getLsbD k.bit && em.getLsbD k.bit) := by
  simp [pendingEnabled_getLsbD, k.bit_lt]

/-! ### The scan (60 R119) -/

/-- The scan selects source k exactly when its bit is set and no lower bit is. -/
theorem scan_selects_iff (v : Vectors) (p : Byte) (k : IrqSource) :
    (scan v p).map (·.1) = some k ↔
      p.getLsbD k.bit = true ∧ ∀ j : IrqSource, j.bit < k.bit → p.getLsbD j.bit = false := by
  rw [scan_eq, IrqSource.forall_iff]
  split_ifs with h0 h1 h2 h3 h4
  all_goals cases k <;> simp_all [IrqSource.bit]

theorem scan_eq_none_iff (v : Vectors) (p : Byte) :
    scan v p = none ↔ ∀ k : IrqSource, p.getLsbD k.bit = false := by
  simp [scan, dispatchTable, IrqSource.forall_iff]

/-- The conjunction of the registers is zero exactly when no source is both requested and enabled. -/
theorem pendingEnabled_eq_zero_iff (rf em : Byte) :
    pendingEnabled rf em = 0#8 ↔ ∀ k : IrqSource, (pendingEnabled rf em).getLsbD k.bit = false := by
  refine ⟨fun h k => by simp [h], fun h => BitVec.eq_of_getLsbD_eq fun n _ => ?_⟩
  rw [BitVec.getLsbD_zero]
  by_cases hn : n < 5
  · obtain ⟨k, rfl⟩ : ∃ k : IrqSource, k.bit = n := by
      interval_cases n
      exacts [⟨.videoBlank, rfl⟩, ⟨.displayStatus, rfl⟩, ⟨.timer, rfl⟩, ⟨.serial, rfl⟩, ⟨.joypad, rfl⟩]
    exact h k
  · simp [pendingEnabled_getLsbD, hn]

theorem intOf_injective : Function.Injective intOf := by
  intro j k h
  cases j <;> cases k <;> cases h <;> rfl

theorem decodeInterrupt_selects_iff (v : Vectors) (p : Byte) (k : IrqSource) :
    decodeInterrupt v p = some (intOf k) ↔
      p.getLsbD k.bit = true ∧ ∀ j : IrqSource, j.bit < k.bit → p.getLsbD j.bit = false := by
  rw [← scan_selects_iff v, ← (Option.map_injective intOf_injective).eq_iff, Option.map_map]
  rfl

/-- Settles O8: the selection law of the dispatch table, read at each of its five rows. -/
theorem prioritySelection : Obligations.PrioritySelection := by
  intro v rf em both p
  have hp : ∀ k : IrqSource, p.getLsbD k.bit = both k.bit := pendingEnabled_getLsbD_bit rf em
  have hselects : ∀ k, decodeInterrupt v p = some (intOf k) ↔
      both k.bit = true ∧ ∀ j : IrqSource, j.bit < k.bit → both j.bit = false := fun k => by
    simp only [decodeInterrupt_selects_iff, hp]
  refine ⟨(hselects .videoBlank).trans ?_, (hselects .displayStatus).trans ?_, (hselects .timer).trans ?_,
    (hselects .serial).trans ?_, (hselects .joypad).trans ?_, ?_⟩
  case refine_6 =>
    rw [decodeInterrupt, Option.map_eq_none_iff, scan_eq_none_iff]
    exact (pendingEnabled_eq_zero_iff rf em).symm
  all_goals
    rw [IrqSource.forall_iff]
    simp [IrqSource.bit, and_comm, and_assoc]

end Sys2Proof
end

section
/-! SUPPORT. Everything a dispatch changes, on any stack and in RAM, under either acknowledge policy, and the return that
undoes it (60 R116-R120, R126, R127, R132, R133). -/

namespace Sys2Proof.Machine

/-! ### The whole next state of a dispatch -/

/-- What an acknowledge of this policy leaves of the requests `rf`: it clears all of them, or the winner's, or none where no
source won (60 R120, R126, R127). -/
def acknowledged : AckPolicy → Option IrqSource → Byte → Byte
  | .clearAll, _, _ => 0x00#8
  | .clearServiced, some k, rf => rf &&& ~~~k.mask
  | .clearServiced, none, rf => rf

theorem State.acknowledge_requestedFlags (s : State) (w : Option IrqSource) :
    (s.acknowledge w).requestedFlags = acknowledged s.cfg.ackPolicy w s.requestedFlags := by
  cases hp : s.cfg.ackPolicy with
  | clearAll =>
    simp only [State.acknowledge, hp, State.clearIF_requestedFlags]
    exact BitVec.and_zero
  | clearServiced => cases w <;> simp only [State.acknowledge, hp, State.clearIF_requestedFlags, acknowledged]

/-- Everything the push does: `sp`, memory, the mapped controller registers and the log (60 R116). -/
theorem State.pushPc_eq (s : State) :
    s.pushPc = { s with
      sp := s.sp - 2, mem := s.pushPc.mem
      enabledMask := s.pushedOnto .intEnable s.enabledMask
      requestedFlags := s.pushedOnto .intRequest s.requestedFlags
      ports := s.ports ++ [.busWrite (s.sp - 1) (highByte s.pc), .busWrite (s.sp - 2) (lowByte s.pc)] } := by
  rw [← s.pushPc_enabledMask, ← s.pushPc_requestedFlags, ← s.pushPc_ports]
  simp only [State.pushPc, State.busWrite_eq]
  rfl

/-- What the push stores does not depend on the count. -/
theorem State.setElapsed_pushPc_mem (s : State) (n : Nat) : (s.setElapsed n).pushPc.mem = s.pushPc.mem := by
  simp only [State.pushPc, State.setSp_mem, State.busWrite_mem, State.kindAt, State.busWrite_busMap]
  rfl

section
variable (w : Option IrqSource) (s : State)

/-- Taking an interrupt as one update of the state: the push, the latches, `pc` and the acknowledge (60 R132). -/
theorem takeInterrupt_state :
    takeInterrupt w s = { s with
      pc := w.elim s.pc s.cfg.vec.get, sp := s.sp - 2, ime := false, halted := false, mem := s.pushPc.mem
      enabledMask := s.pushedOnto .intEnable s.enabledMask
      requestedFlags := acknowledged s.cfg.ackPolicy w (s.pushedOnto .intRequest s.requestedFlags)
      ports := s.ports ++ [.busWrite (s.sp - 1) (highByte s.pc), .busWrite (s.sp - 2) (lowByte s.pc)] ++
        ackEvents s.cfg.ackPolicy w } := by
  rw [takeInterrupt_eq, State.acknowledge_eq, State.acknowledge_requestedFlags, State.acknowledge_ports, State.pushPc_eq]
  cases w <;> rfl

theorem takeInterrupt_requestedFlags :
    (takeInterrupt w s).requestedFlags = acknowledged s.cfg.ackPolicy w (s.pushedOnto .intRequest s.requestedFlags) := by
  rw [takeInterrupt_state]

/-- The two bytes pushed in RAM (60 R116). -/
theorem takeInterrupt_pushes (hram : s.stackInRam = true) :
    (takeInterrupt w s).byteAt (s.sp - 1) = highByte s.pc ∧ (takeInterrupt w s).byteAt (s.sp - 2) = lowByte s.pc := by
  obtain ⟨hhigh, hlow⟩ := s.stackInRam_iff.mp hram
  simp only [takeInterrupt_byteAt, s.pushPc_byteAt_high hhigh, s.pushPc_byteAt_low hlow, and_self]
end

/-- Settles O23: the dispatch as one update, and the laws of the push for each byte. -/
theorem dispatchesCompleteOnAnyStack : Obligations.DispatchesCompleteOnAnyStack := by
  intro k s
  refine ⟨_, exec_intOf k s, ?_, fun hhigh => ?_, fun hlow => ?_, fun b hb1 hb2 => ?_⟩
  · rw [takeInterrupt_mem, takeInterrupt_state, List.append_assoc]
    cases s.cfg.ackPolicy <;> rfl
  · rw [takeInterrupt_byteAt, s.pushPc_byteAt_high hhigh]
  · rw [takeInterrupt_byteAt, s.pushPc_byteAt_low hlow]
  · have hkept : ∀ a, b ≠ a ∨ s.ramAt b = false → b ≠ a ∨ s.ramAt a = false := fun a h => by
      by_cases hba : b = a
      · rwa [hba] at h ⊢
      · exact .inl hba
    rw [takeInterrupt_byteAt]
    exact s.pushPc_byteAt_other b (hkept _ hb1) (hkept _ hb2)

/-! ### On a stack in RAM -/

/-- A push in RAM reaches neither controller register. -/
theorem State.pushSpares_of_stackInRam (s : State) (kind : RegionKind) (hk : kind ≠ .ram) (hram : s.stackInRam = true) :
    s.pushSpares kind = true := by
  obtain ⟨hhigh, hlow⟩ := s.stackInRam_iff.mp hram
  rw [State.pushSpares, (s.ramAt_iff _).mp hhigh, (s.ramAt_iff _).mp hlow, Bool.and_self]
  exact bne_iff_ne.mpr hk.symm

theorem State.pushedOnto_of_stackInRam (s : State) (kind : RegionKind) (old : Byte) (hk : kind ≠ .ram)
    (hram : s.stackInRam = true) : s.pushedOnto kind old = old :=
  s.pushedOnto_spared kind old (s.pushSpares_of_stackInRam kind hk hram)

/-- Settles O22: on a stack in RAM the dispatch of O23 reaches no controller register but by the acknowledge. -/
theorem dispatchesComplete : Obligations.DispatchesComplete := by
  intro k s hram
  obtain ⟨hramHigh, hramLow⟩ := s.stackInRam_iff.mp hram
  obtain ⟨t, ht, hstate, hhigh, hlow, hother⟩ := dispatchesCompleteOnAnyStack k s
  rw [s.pushedOnto_of_stackInRam .intEnable _ (by decide) hram,
    s.pushedOnto_of_stackInRam .intRequest _ (by decide) hram] at hstate
  exact ⟨t, ht, hstate, hhigh hramHigh, hlow hramLow, fun b hb1 hb2 => hother b (.inl hb1) (.inl hb2)⟩

/-- Settles O25: the return pops what the dispatch pushed. -/
theorem retiUndoesDispatch : Obligations.RetiUndoesDispatch := by
  intro k s t hram ht
  rw [exec_intOf] at ht
  cases ht
  have hpop := s.pop_of_push _ hram (takeInterrupt_mem (some k) s) (takeInterrupt_busMap (some k) s)
    (takeInterrupt_sp (some k) s)
  refine ⟨_, congrArg Host.Outcome.next (completeInstr_return true operandL1 1 _), hpop, ?_, rfl,
    takeInterrupt_regs (some k) s, rfl⟩
  rw [takeInterrupt_sp, BitVec.sub_add_cancel]

/-! ### The acknowledge (60 R120, R127) -/

/-- Clearing a source's bit clears that bit and no other. -/
theorem clear_mask_getLsbD (rf : Byte) (k : IrqSource) (n : Nat) :
    (rf &&& ~~~k.mask).getLsbD n = (rf.getLsbD n && decide (n ≠ k.bit)) := by
  by_cases hn : n < 8
  · simp only [BitVec.getLsbD_and, BitVec.getLsbD_not, k.mask_getLsbD, hn, decide_true, Bool.true_and, decide_not]
  · simp [BitVec.getLsbD_of_ge rf n (by omega)]

/-- Settles O26: the acknowledge of the policy, on the requests that the push leaves. -/
theorem acknowledgePolicies : Obligations.AcknowledgePolicies := by
  intro k s t ht
  rw [exec_intOf] at ht
  cases ht
  refine ⟨fun hp => ?_, fun hp => ⟨?_, fun hspares n hn => ?_⟩⟩
  · rw [takeInterrupt_requestedFlags, hp]
    rfl
  · rw [takeInterrupt_requestedFlags, hp, acknowledged, clear_mask_getLsbD]
    simp
  · rw [takeInterrupt_requestedFlags, hp, acknowledged, clear_mask_getLsbD, s.pushedOnto_spared _ _ hspares]
    simp [hn]

end Sys2Proof.Machine
end

section
/-! SUPPORT. `handleInterrupts` call by call: the gate, the guard, the winner's dispatch, the call without a winner, and what
the count and `halted` have to do with it (60 R114, R115, R119, R126, R130, R143). -/

namespace Sys2Proof.Machine

/-! ### The gate and the guard (60 R114, R115) -/

/-- Settles O27: step 1 returns. -/
theorem masterGate : Obligations.MasterGate := by
  intro s hi
  rw [handleInterrupts_eq, if_pos hi]

theorem guardPasses_masked_iff (rf em : Byte) : guardPasses .masked rf em = true ↔ rf &&& em &&& 0x1F#8 ≠ 0#8 :=
  bne_iff_ne

theorem guardPasses_eachNonzero_iff (rf em : Byte) : guardPasses .eachNonzero rf em = true ↔ rf ≠ 0#8 ∧ em ≠ 0#8 := by
  simp [guardPasses]

section
variable (s : State) (hi : s.ime = true)
include hi

theorem handleInterrupts_of_guard_fails (hg : ¬ guardPasses s.cfg.irqGuard s.requestedFlags s.enabledMask = true) :
    handleInterrupts s = .next s.sampled := by
  rw [handleInterrupts_eq, if_neg (by simp [hi]), if_pos (by simpa using hg)]

theorem handleInterrupts_of_guard_passes (hg : guardPasses s.cfg.irqGuard s.requestedFlags s.enabledMask = true) :
    handleInterrupts s = dispatch s.requestedFlags s.enabledMask s.sampled :=
  (handleInterrupts_dispatch s hi hg).trans (dispatch_eq _ _ s.sampled).symm
end

/-- Settles O28: under each guard, what its passing says of the two samples. -/
theorem guardOfStepTwo : Obligations.GuardOfStepTwo := by
  intro s hi
  refine ⟨fun hmode hzero => ?_, fun hmode hnonzero => ?_, fun hmode hzero => ?_, fun hmode hrf hem => ?_⟩
  · refine handleInterrupts_of_guard_fails s hi ?_
    rw [hmode, guardPasses_masked_iff]
    exact not_not.mpr hzero
  · refine handleInterrupts_of_guard_passes s hi ?_
    rwa [hmode, guardPasses_masked_iff]
  · refine handleInterrupts_of_guard_fails s hi ?_
    rw [hmode, guardPasses_eachNonzero_iff]
    rintro ⟨hrf, hem⟩
    exact hzero.elim hrf hem
  · refine handleInterrupts_of_guard_passes s hi ?_
    rw [hmode, guardPasses_eachNonzero_iff]
    exact ⟨hrf, hem⟩

/-! ### The winner (60 R119) -/

/-- The winner is the least source both requested and enabled. -/
theorem State.winner_eq_some_iff (s : State) (k : IrqSource) :
    s.winner = some k ↔ (s.requestedFlags.getLsbD k.bit && s.enabledMask.getLsbD k.bit) = true ∧
      ∀ j : IrqSource, j.bit < k.bit → (s.requestedFlags.getLsbD j.bit && s.enabledMask.getLsbD j.bit) = false := by
  simp only [State.winner, scan_selects_iff, pendingEnabled_getLsbD_bit]

theorem State.winner_eq_none_iff (s : State) :
    s.winner = none ↔ s.requestedFlags &&& s.enabledMask &&& 0x1F#8 = 0#8 := by
  rw [State.winner, Option.map_eq_none_iff, scan_eq_none_iff]
  exact (pendingEnabled_eq_zero_iff _ _).symm

/-- A source that is both requested and enabled makes either guard pass. -/
theorem guardPasses_of_winner (g : IrqGuard) (s : State) (k : IrqSource) (hw : s.winner = some k) :
    guardPasses g s.requestedFlags s.enabledMask = true := by
  obtain ⟨hboth, -⟩ := (s.winner_eq_some_iff k).mp hw
  cases g with
  | masked =>
    rw [guardPasses_masked_iff, Ne, ← s.winner_eq_none_iff, hw]
    exact Option.some_ne_none k
  | eachNonzero =>
    rw [guardPasses_eachNonzero_iff]
    constructor <;> intro hzero <;> simp [hzero] at hboth

theorem handleInterrupts_of_winner (s : State) (k : IrqSource) (hi : s.ime = true) (hw : s.winner = some k) :
    handleInterrupts s = .next (takeInterrupt (some k) s.sampled) := by
  rw [handleInterrupts_dispatch s hi (guardPasses_of_winner _ s k hw), hw]

/-- Settles O29: the least source requested and enabled is the winner. -/
theorem leastPendingSourceIsDispatched : Obligations.LeastPendingSourceIsDispatched := by
  intro s k hi hboth hleast
  have h := handleInterrupts_of_winner s k hi ((s.winner_eq_some_iff k).mpr ⟨hboth, hleast⟩)
  exact ⟨h.trans (exec_intOf k s.sampled).symm, _, h, takeInterrupt_some_pc k s.sampled⟩

/-- Settles O30: the dispatch without a winner, on a stack in RAM. -/
theorem spuriousDispatchKeepsPc : Obligations.SpuriousDispatchKeepsPc := by
  intro s hi hmode hrf hem hzero hram
  have h := handleInterrupts_dispatch s hi (by rw [hmode, guardPasses_eachNonzero_iff]; exact ⟨hrf, hem⟩)
  rw [s.winner_eq_none_iff.mpr hzero] at h
  obtain ⟨hhigh, hlow⟩ := takeInterrupt_pushes none s.sampled hram
  refine ⟨_, h, takeInterrupt_none_pc _, takeInterrupt_sp _ _, takeInterrupt_ime _ _, takeInterrupt_halted _ _, hhigh, hlow,
    takeInterrupt_regs _ _, ?_, takeInterrupt_elapsedCycles _ _, ?_⟩
  · rw [takeInterrupt_requestedFlags, State.pushedOnto_of_stackInRam s.sampled _ _ (by decide) hram]
    show acknowledged s.cfg.ackPolicy none s.requestedFlags = _
    cases s.cfg.ackPolicy <;> rfl
  · rw [takeInterrupt_enabledMask, State.pushedOnto_of_stackInRam s.sampled _ _ (by decide) hram]
    rfl

/-! ### The count (60 R130, 10 R24) -/

theorem takeInterrupt_setElapsed (w : Option IrqSource) (s : State) (n : Nat) :
    takeInterrupt w (s.setElapsed n) = (takeInterrupt w s).setElapsed n := by
  rw [takeInterrupt_state, takeInterrupt_state, State.setElapsed_pushPc_mem]
  rfl

/-- Settles O32: the gate, the guard and the winner do not read the count, and no kind of call writes it. -/
theorem countIsInvisibleToHandleInterrupts : Obligations.CountIsInvisibleToHandleInterrupts := by
  intro s n
  by_cases hi : s.ime = false
  · exact ⟨s, masterGate s hi, rfl, masterGate (s.setElapsed n) hi⟩
  have hi : s.ime = true := Bool.eq_true_of_not_eq_false hi
  by_cases hg : guardPasses s.cfg.irqGuard s.requestedFlags s.enabledMask = true
  · refine ⟨_, handleInterrupts_dispatch s hi hg, takeInterrupt_elapsedCycles _ _, ?_⟩
    exact (handleInterrupts_dispatch (s.setElapsed n) hi hg).trans
      (congrArg Host.Outcome.next (takeInterrupt_setElapsed s.winner s.sampled n))
  · exact ⟨_, handleInterrupts_of_guard_fails s hi hg, rfl, handleInterrupts_of_guard_fails (s.setElapsed n) hi hg⟩

/-! ### `halted` (60 R118, R143) -/

theorem cycle_keeps_halted (s t : State) (h : cycle s = .next t) (hh : s.halted = true) : t.halted = true := by
  rcases cycle_cases s t h with ⟨-, rfl⟩ | ⟨-, -, rfl⟩ | ⟨-, -, e, operand, length, advances, fresh, ports, rfl⟩
  · exact hh
  · rw [State.fetchOpcode_eq]
    exact hh
  · exact completeInstr_halted e operand length advances _ hh

/-- Settles O54: an effect cannot clear `halted`, and of the three kinds of `handleInterrupts` call only the dispatch does. -/
theorem haltedIsClearedOnlyByDispatch : Obligations.HaltedIsClearedOnlyByDispatch := by
  refine ⟨cycle_keeps_halted, fun s t h hs ht => ?_, fun s t h hi hg => ?_⟩
  · rcases handleInterrupts_cases s t h with ⟨-, rfl⟩ | ⟨-, -, rfl⟩ | ⟨hi, hg, -⟩
    · exact absurd (hs.symm.trans ht) (by decide)
    · exact absurd (hs.symm.trans ht) (by decide)
    · exact ⟨hi, hg⟩
  · rw [handleInterrupts_dispatch s hi hg] at h
    cases h
    exact takeInterrupt_halted _ _

end Sys2Proof.Machine
end

section
/-! SUPPORT. Steps with an interrupt: the dispatch inside an instruction, the dispatch on the tick of an `EI`, and the hang of
a halted core behind the halt gate (60 R129, R130, R143, 40 R80, R81). -/

namespace Sys2Proof.Machine

theorem ackEvents_no_effect (p : AckPolicy) (w : Option IrqSource) (operand : Word) :
    PortEvent.effect operand ∉ ackEvents p w := by
  cases p <;> cases w <;> simp [ackEvents]

/-- A silent step whose `cycle` call ends in `c`, with `ime` set, a winner and a stack in RAM: it dispatches the winner from
`c`, and no effect runs any more (60 R116-R119, R128). -/
theorem step_of_winner (s c : State) (k : IrqSource) (hok : s.tableOk = true) (hinputs : s.inputs = [])
    (hc : cycle { s with ports := [] } = .next c) (hi : c.ime = true) (hram : c.stackInRam = true)
    (hw : c.winner = some k) :
    ∃ t, step s = .next t ∧ t.pc = c.cfg.vec.get k ∧ t.sp = c.sp - 2 ∧ t.ime = false ∧ t.regs = c.regs ∧
      t.elapsedCycles = c.elapsedCycles ∧ t.byteAt (c.sp - 1) = highByte c.pc ∧ t.byteAt (c.sp - 2) = lowByte c.pc ∧
      ∀ operand, PortEvent.effect operand ∈ t.ports ↔ PortEvent.effect operand ∈ c.ports := by
  have hstep : step s = .next (takeInterrupt (some k) c.sampled) := by
    rw [step_silent s hok hinputs, hc]
    exact handleInterrupts_of_winner c k hi hw
  obtain ⟨hhigh, hlow⟩ := takeInterrupt_pushes (some k) c.sampled hram
  refine ⟨_, hstep, takeInterrupt_some_pc _ _, takeInterrupt_sp _ _, takeInterrupt_ime _ _, takeInterrupt_regs _ _,
    takeInterrupt_elapsedCycles _ _, hhigh, hlow, fun operand => ?_⟩
  rw [takeInterrupt_ports]
  simp [State.sampled, ackEvents_no_effect]

/-- Settles O41: the `cycle` call in flight counts and logs its fetch, and the dispatch follows from there. -/
theorem dispatchAbandonsInstructionInFlight : Obligations.DispatchAbandonsInstructionInFlight := by
  intro s k hinputs hok hg hi hram hd hboth hleast
  have hc := inFlightTick { s with ports := [] } hg hd
  obtain ⟨t, hstep, hpc, hsp, -, hregs, hcount, hhigh, hlow, heffects⟩ :=
    step_of_winner s _ k hok hinputs hc hi hram ((s.winner_eq_some_iff k).mpr ⟨hboth, hleast⟩)
  exact ⟨t, hstep, hpc, hcount, hsp, hhigh, hlow, hregs, fun operand h => by simpa using (heffects operand).mp h⟩

/-- The `cycle` call on whose tick an `EI` in plain memory completes (40 R69-R73, 41 R100). -/
theorem cycle_ei (s : State) (hg : s.gated = false) (hplain : s.plainAt s.pc = true) (hop : s.byteAt s.pc = 0xFB#8)
    (hb : s.cfg.itab.bindsFixture 0xFB#8 = true) (hd : 4 ≤ s.elapsedCycles + 1) :
    cycle s = .next { s.fetched 1 with
      ime := true, pc := s.pc + 1, elapsedCycles := 0, ports := (s.fetched 1).ports ++ [.effect 0x0000#16] } := by
  obtain ⟨hlength, hduration, -, -⟩ := s.cfg.itab.bindsFixture_row _ _ fixtureTable_lookup_ei hb
  have hanswer : s.opcodeAnswer = 0xFB#8 := (s.opcodeAnswer_plain hplain).trans hop
  have hdec : decode s.cfg.itab [s.opcodeAnswer, s.lowAnswer, s.highAnswer] = .ok (.ei, [s.lowAnswer, s.highAnswer]) := by
    rw [hanswer]
    exact decode_fixtureL1 _ _ _ hb rfl
  rw [cycle_of_decode s .ei _ hdec hg (by rwa [hanswer, hduration]), hanswer, hlength,
    s.answered_plain 1 (by simp [State.plainFetch, hplain])]
  exact (latchInstructionsComplete (s.fetched 1)).1

/-- Settles O42: the `EI` leaves `ime` set and `pc` at the next instruction, and the dispatch of its tick starts there. -/
theorem enableTakesEffectAtOnce : Obligations.EnableTakesEffectAtOnce := by
  intro s k hinputs hok hg hram hplain hop hb hd hboth hleast
  have hc := cycle_ei { s with ports := [] } hg hplain hop hb hd
  obtain ⟨t, hstep, hpc, -, hime, -, -, hhigh, hlow, -⟩ :=
    step_of_winner s _ k hok hinputs hc rfl hram ((s.winner_eq_some_iff k).mpr ⟨hboth, hleast⟩)
  exact ⟨t, hstep, hpc, hime, hhigh, hlow⟩

/-! ### The hang (60 R143) -/

theorem State.hung_iff (s : State) :
    s.hung = true ↔ s.gated = true ∧ s.ime = false ∧ s.noReset = true ∧ s.tableOk = true := by
  simp [State.hung, and_assoc]

/-- The reset input is not at the head of a queue that holds none, and what remains of the queue holds none. -/
theorem State.noReset_cons (s : State) (i : Input) (rest : List Input) (hinputs : s.inputs = i :: rest) :
    s.noReset = true ↔ i ≠ .reset ∧ (s.setInputs rest).noReset = true := by
  simp [State.noReset, hinputs]

/-- A clock period of a hung core is its environment's moves: `cycle` stops at the gate (40 R81) and `handleInterrupts` at
`ime` (60 R114). -/
theorem clockTick_of_hung (before between after : List EnvMove) (s : State) (h : s.hung = true) :
    clockTick before between after s =
      .next ((((s.setPorts []).environment before).environment between).environment after) := by
  obtain ⟨hg, hi, -, hok⟩ := s.hung_iff.mp h
  have hc := cycle_of_gated ((s.setPorts []).environment before) (by simpa [State.gated] using hg)
  have hd := masterGate (((s.setPorts []).environment before).environment between) (by simpa using hi)
  rw [clockTick_eq_tick _ _ _ s hok]
  simp only [tick, hc, andThen, hd]

/-- A step of a hung core takes its input off the queue and lets the environment move. -/
theorem step_of_hung (s : State) (h : s.hung = true) :
    ∃ rest before between after, (s.setInputs rest).noReset = true ∧
      step s = .next (((((s.setInputs rest).setPorts []).environment before).environment between).environment after) := by
  obtain ⟨hg, hi, hno, hok⟩ := s.hung_iff.mp h
  cases hinputs : s.inputs with
  | nil =>
    refine ⟨[], [], [], [], rfl, ?_⟩
    rw [step_of_no_inputs s hinputs, clockTick_of_hung _ _ _ s h, ← hinputs]
    rfl
  | cons i rest =>
    obtain ⟨hclock, hrest⟩ := (s.noReset_cons i rest hinputs).mp hno
    cases i with
    | reset => exact absurd rfl hclock
    | clock before between after =>
      refine ⟨rest, before, between, after, hrest, ?_⟩
      rw [step_of_input s _ rest hinputs]
      exact clockTick_of_hung before between after (s.setInputs rest) ((State.hung_iff _).mpr ⟨hg, hi, hrest, hok⟩)

theorem State.environment_hung (moves : List EnvMove) (s : State) : (s.environment moves).hung = s.hung := by
  simp [State.hung, State.gated, State.noReset]

/-- Settles O55: nothing but the environment acts in such a step, and the environment reaches neither the CPU state nor the
queue nor the parameters. -/
theorem gatedHaltIsAHang : Obligations.GatedHaltIsAHang := by
  intro s h
  obtain ⟨hg, hi, -, hok⟩ := s.hung_iff.mp h
  obtain ⟨rest, before, between, after, hrest, hstep⟩ := step_of_hung s h
  refine ⟨_, hstep, ?_, ?_⟩
  · simp only [State.environment_hung]
    exact (State.hung_iff _).mpr ⟨hg, hi, hrest, hok⟩
  · simp

end Sys2Proof.Machine
end

section
/-! SUPPORT. The reset input, and the first Bus access after power-on (70 R150, R151). -/

namespace Sys2Proof.Machine

/-! ### The reset input (70 R150) -/

theorem RegFile.zeroed_r8 (r : RegFile) : ∀ v ∈ (RegFile.zeroed r).r8, v = 0#8 :=
  List.forall_mem_map.mpr fun _ _ => rfl

theorem RegFile.zeroed_r16 (r : RegFile) : ∀ v ∈ (RegFile.zeroed r).r16, v = 0#16 :=
  List.forall_mem_map.mpr fun _ _ => rfl

/-- The reset input taken off the queue runs nothing but the power-on, on an empty log. -/
theorem step_of_reset (s : State) (rest : List Input) (h : s.inputs = .reset :: rest) :
    step s = .next ((s.setInputs rest).setPorts []).powerOn :=
  step_of_input s .reset rest h

/-- Settles O2: the power-on zeroes the six CPU fields, the registers in place, and writes no other field. -/
theorem resetInputRecreatesCpuState : Obligations.ResetInputRecreatesCpuState := by
  intro s rest h
  exact ⟨_, step_of_reset s rest h, rfl, rfl, rfl, rfl, rfl, RegFile.zeroed_r8 s.regs, RegFile.zeroed_r16 s.regs,
    s.powerOn_shape, rfl, rfl, rfl, rfl, rfl, rfl, rfl, rfl⟩

/-! ### The first Bus access (70 R151) -/

/-- A `handleInterrupts` call only adds to the log, whether it samples, dispatches or neither (20 R36). -/
theorem handleInterrupts_ports_grow (s t : State) (h : handleInterrupts s = .next t) : s.ports <+: t.ports := by
  rcases handleInterrupts_cases s t h with ⟨-, rfl⟩ | ⟨-, -, rfl⟩ | ⟨-, -, w, rfl⟩
  · exact List.prefix_rfl
  · exact List.prefix_append _ _
  · rw [takeInterrupt_ports]
    simp [State.sampled]

/-- The log of a silent step of a core that is not gated begins with the opcode read and its lookup (40 R65, R67, R68). -/
theorem step_ports_begin_with_fetch (s t : State) (hinputs : s.inputs = []) (hok : s.tableOk = true)
    (hg : s.gated = false) (h : step s = .next t) :
    [.busRead s.pc s.opcodeAnswer, .lookup s.opcodeAnswer] <+: t.ports := by
  obtain ⟨c, d, hc, hd, hstep⟩ := silentTickIsCycleThenHandleInterrupts s hok hinputs
  obtain rfl : t = d := Host.Outcome.next.inj (h.symm.trans hstep)
  exact (cycle_ports_begin_with_fetch { s with ports := [] } c hc hg).trans (handleInterrupts_ports_grow c t hd)

/-- Settles O3: power-on clears `halted`, so no gate holds back the fetch, and it leaves `pc` at zero and the Bus alone. -/
theorem firstFetchIsAtZero : Obligations.FirstFetchIsAtZero := by
  intro s hok hinputs
  obtain ⟨t, h⟩ := everyStepAnswers s.powerOn hok
  obtain ⟨later, hlater⟩ := step_ports_begin_with_fetch s.powerOn t hinputs hok rfl h
  exact ⟨t, .lookup s.powerOn.opcodeAnswer :: later, h, hlater.symm⟩

end Sys2Proof.Machine
end

section
/-! SUPPORT. The fixture instructions that touch no memory: NOP and ILL, the writes of `x[A]`, the pointers (95 section 4). -/

namespace Sys2Proof.Machine

/-- The byte an effect takes from a two-byte instruction's operand is the immediate byte (30 R56, 95 section 4). -/
@[simp] theorem lowByte_operandL2 (imm8 : Byte) : lowByte (operandL2 imm8) = imm8 := lowByte_zext16 imm8

/-! ### NOP and ILL -/

/-- Completing an instruction that does nothing and does not advance: only the log and the count, so it repeats (41 R103). -/
theorem completeInstr_nothing_repeats (operand : Word) (length : Nat) (s : State) :
    completeInstr nothingEffect operand length false s =
      { s with elapsedCycles := 0, ports := s.ports ++ [.effect operand] } := rfl

/-- Settles O14: both have the effect that does nothing, and only NOP's descriptor advances. -/
theorem nopAndIllComplete : Obligations.NopAndIllComplete :=
  ⟨fun s => congrArg Host.Outcome.next (completeInstr_nothing operandL1 1 s),
    fun s _ => congrArg Host.Outcome.next (completeInstr_nothing_repeats operandL1 1 s)⟩

/-! ### The register `x[A]` -/

/-- Completing an instruction whose effect assigns `v` to `x[A]`: the next state, and what its register file holds. -/
theorem completeInstr_putA (v : Byte) (operand : Word) (length : Nat) (s : State) :
    ∃ r, completeInstr (.put (.r8 regA v) .done) operand length true s = { s with
        regs := r, pc := s.pc + BitVec.ofNat 16 length, elapsedCycles := 0, ports := s.ports ++ [.effect operand] } ∧
      (s.hasA = true → RegFile.get8 r regA = v) ∧ r.r8.length = s.regs.r8.length ∧
      (∀ j, j ≠ regA → RegFile.get8 r j = RegFile.get8 s.regs j) ∧ r.r16 = s.regs.r16 :=
  ⟨RegFile.set8 s.regs regA v, completeInstr_put (.r8 regA v) operand length s,
    fun hA => RegFile.get8_set8_same _ _ _ (of_decide_eq_true hA), List.length_set,
    fun j hj => RegFile.get8_set8_other _ _ j _ hj, rfl⟩

theorem exec_incA (s : State) :
    exec .incA s = .next (completeInstr (.put (.r8 regA (s.regAValue + 1)) .done) operandL1 1 true s) := rfl

theorem exec_ldAD8 (s : State) (d8 : Byte) :
    exec (.ldAD8 d8) s = .next (completeInstr (.put (.r8 regA d8) .done) (operandL2 d8) 2 true s) := by
  show Host.Outcome.next (completeInstr (.put (.r8 regA (lowByte (operandL2 d8))) .done) _ 2 true s) = _
  rw [lowByte_operandL2]

/-- Settles O15: each is one assignment to `x[A]`, of its old value plus 1 or of the immediate byte. -/
theorem registerInstructionsComplete : Obligations.RegisterInstructionsComplete := by
  refine ⟨fun s => ?_, fun s d8 => ?_⟩
  · obtain ⟨r, hnext, hr⟩ := completeInstr_putA (s.regAValue + 1) operandL1 1 s
    exact ⟨r, (exec_incA s).trans (congrArg Host.Outcome.next hnext), hr⟩
  · obtain ⟨r, hnext, hr⟩ := completeInstr_putA d8 (operandL2 d8) 2 s
    exact ⟨r, (exec_ldAD8 s d8).trans (congrArg Host.Outcome.next hnext), hr⟩

/-! ### The stack pointer and the jumps -/

/-- Completing an unconditional jump: `pc` is the target, since the flag is false (41 R97). -/
theorem completeInstr_jump (target operand : Word) (length : Nat) (s : State) :
    completeInstr (jumpEffect target) operand length false s =
      { s with pc := target, elapsedCycles := 0, ports := s.ports ++ [.effect operand] } := rfl

/-- Completing a relative jump: the block adds the length to what the effect wrote, so the displacement counts from the next
instruction (41 R98). -/
theorem completeInstr_jumpRelative (e8 : Byte) (operand : Word) (length : Nat) (s : State) :
    completeInstr (jumpRelativeEffect (operandL2 e8)) operand length true s = { s with
      pc := s.pc + BitVec.ofNat 16 length + sext16 e8, elapsedCycles := 0, ports := s.ports ++ [.effect operand] } := by
  show { s with
    pc := s.pc + sext16 (lowByte (operandL2 e8)) + BitVec.ofNat 16 length, elapsedCycles := 0
    ports := s.ports ++ [PortEvent.effect operand] } = _
  rw [lowByte_operandL2, add_right_comm]

/-- Settles O16: one assignment to `sp`, and the two kinds of jump. -/
theorem pointerInstructionsComplete : Obligations.PointerInstructionsComplete :=
  ⟨fun s d16 => congrArg Host.Outcome.next (completeInstr_put (.sp d16) d16 3 s),
    fun s a16 => congrArg Host.Outcome.next (completeInstr_jump a16 a16 3 s),
    fun s e8 => congrArg Host.Outcome.next (completeInstr_jumpRelative e8 (operandL2 e8) 2 s)⟩

end Sys2Proof.Machine
end
